-- ==== Sys2Proof/Word.lean ====
section
/-! DEFINITION. The two word types of mcL2-CORE. No rule of the spec splits a word into bytes (20_memory.md R72), so
there is no byte type and no byte order here. -/

namespace Sys2Proof

/-- A Sample: a 16-bit two's complement word read as Q15 (30_encoding.md R101). -/
abbrev Sample := BitVec 16

/-- The accumulator's word: 32-bit two's complement read as Q31, no guard bits (30_encoding.md R102). -/
abbrev Acc := BitVec 32

end Sys2Proof
end

