-- ==== Sys2Proof/Config.lean ====
section
/-! DEFINITION. The configuration: every parameter of 00_scope.md R9 and R10, the plain derived lengths of R11, the
spec's own TESTCFG (R13), and the two free values (the contents of INBUF and OUTBUF that no one has written,
93_implementation_defined.md U3, U5). What a configuration must satisfy is in WellFormed.lean. -/

namespace Sys2Proof

/-- How PHASE_INC is computed (00_scope.md R10, 42_carrier.md R167). -/
inductive IncOrder where
  | mulFirst
  | divFirst
deriving DecidableEq, Repr

/-- What mode 2 emits (00_scope.md R10, 45_block_entry.md R242 and R244). -/
inductive Mode2Behaviour where
  | tone
  | silence
deriving DecidableEq, Repr

/-- Which byte of a word a byte-addressed host bus puts lower. The named open parameter HOST_BYTE_ORDER of
20_memory.md R72; no rule reads it. -/
inductive ByteOrder where
  | littleEndian
  | bigEndian
deriving DecidableEq, Repr

/-- The implementation parameters (00_scope.md R9, R10), with R10's four defaults. None changes after reset. The sample-wide entries are 16-bit
words and the entries of BITS are bits by their types, which is that part of R12. -/
structure Config where
  /-- BLOCK_LEN: samples in one interleaved stereo block. -/
  blockLen : Nat
  /-- N_TAPS: filter coefficients and delay-line cells. -/
  nTaps : Nat
  /-- DELAY: look-back offset in samples. -/
  delay : Nat
  /-- MU: the adaptation step size. -/
  mu : Sample
  /-- SINE: the sine table. -/
  sine : List Sample
  /-- SHAPE_A: the envelope of a transition from the positive end to the negative end. -/
  shapeA : List Sample
  /-- SHAPE_B: the envelope of a transition from the negative end to the positive end. -/
  shapeB : List Sample
  /-- BITS: the bit sequence; `true` is bit 1. -/
  bits : List Bool
  /-- TONE_FREQ in hertz. -/
  toneFreq : Nat
  /-- SAMPLE_RATE in hertz. -/
  sampleRate : Nat
  /-- PHASE_W: width of the phase accumulator, default 16. -/
  phaseW : Nat := 16
  /-- SINE_BITS: log2 of the number of entries of SINE. -/
  sineBits : Nat
  /-- BITS_LEN: number of entries of BITS. -/
  bitsLen : Nat
  /-- Q_COEF: the quadrature coefficient, default 0. -/
  qCoef : Sample := 0
  /-- INC_ORDER, default MUL_FIRST. -/
  incOrder : IncOrder := .mulFirst
  /-- MODE2_BEHAVIOUR, default TONE. -/
  mode2 : Mode2Behaviour := .tone
  /-- HOST_BYTE_ORDER, read by no rule. Log 17. -/
  hostByteOrder : ByteOrder
deriving DecidableEq, Repr

/-- N, the length of one mono channel buffer (00_scope.md R11). -/
def Config.n (c : Config) : Nat := c.blockLen / 2

/-- DR_LEN, the length of the Delay/Reference buffer (00_scope.md R11). -/
def Config.drLen (c : Config) : Nat := c.delay + c.n

/-- SHAPE_LEN, the length of each shaping table (00_scope.md R11). -/
def Config.shapeLen (c : Config) : Nat := c.n

/-- FULL_TURN, the modulus of the phase accumulator (00_scope.md R11). -/
def Config.fullTurn (c : Config) : Nat := 2 ^ c.phaseW

/-- TESTCFG (00_scope.md R13), the spec's own small configuration. It is not the reference design's. R13 gives it no
HOST_BYTE_ORDER and 20_memory.md R72 leaves that open: `littleEndian` here is the model's own value (DESIGN CHOICE,
log 17), which nothing reads. -/
def Config.testcfg : Config where
  blockLen := 8
  nTaps := 3
  delay := 2
  mu := 0x2000
  sine := [0, 12539, 23170, 30273, 32767, 30273, 23170, 12539,
           0, -12539, -23170, -30273, -32767, -30273, -23170, -12539]
  shapeA := [23170, 0, -23170, -32767]
  shapeB := [-23170, 0, 23170, 32767]
  bits := [false, false, true, true]
  toneFreq := 1300
  sampleRate := 8000
  phaseW := 16
  sineBits := 4
  bitsLen := 4
  qCoef := 0
  incOrder := .mulFirst
  mode2 := .tone
  hostByteOrder := .littleEndian

/-- TESTCFG-D6 (00_scope.md R13): TESTCFG with DELAY = 6, so that DELAY exceeds N. -/
def Config.testcfgD6 : Config := { Config.testcfg with delay := 6 }

/-- FREE VALUE: what word `a` of INBUF holds before the host writes it (10_state.md R48, 93_implementation_defined.md
U5: any value, and no theorem may depend on it). It has no body. Log 3. -/
opaque Config.freeInWord (a : Nat) : Sample

/-- FREE VALUE: what word `a` of OUTBUF holds before the first PROCESS completes (10_state.md R49,
93_implementation_defined.md U3: any value). It has no body. Log 3. -/
opaque Config.freeOutWord (a : Nat) : Sample

end Sys2Proof
end

