-- ==== Sys2Proof/Machine/Operands.lean ====
section
/-! DEFINITION. Every index a rule computes (20_memory.md R73) and the derived constants of 00_scope.md R11 that the
index computations use. There is one addressing form, a word index into a named space (30_encoding.md R112). -/

namespace Sys2Proof.Machine

/-- QUARTER, a quarter turn of the phase (00_scope.md R11). -/
def quarterTurn (c : Config) : Nat := 2 ^ (c.phaseW - 2)

/-- SINE_SHIFT (00_scope.md R11). -/
def sineShift (c : Config) : Nat := c.phaseW - c.sineBits

/-- `a mod m` of 00_scope.md R14 for any integer `a`, as an index. -/
def modIndex (a : Int) (m : Nat) : Nat := (a % (m : Int)).toNat

/-- The physical cell of DL that holds the sample of age `k` (10_state.md R39). -/
def ageIndex (nTaps wc k : Nat) : Nat := modIndex ((wc : Int) - 1 - (k : Int)) nTaps

/-- A cursor's next value: WC (40_adaptive_fir.md R131) and BITCUR (43_modulator.md R189) step up and wrap. -/
def nextCursor (cur len : Nat) : Nat := (cur + 1) % len

/-- The left sample of stereo pair `j` in INBUF and OUTBUF (45_block_entry.md R235). -/
def leftIndex (j : Nat) : Nat := 2 * j

/-- The right sample of stereo pair `j` in INBUF and OUTBUF (45_block_entry.md R235). -/
def rightIndex (j : Nat) : Nat := 2 * j + 1

/-- Cell `i` of the DLY window in DRBUF (41_delay_buffer.md R150). -/
def dlyIndex (i : Nat) : Nat := i

/-- Cell `i` of the CUR window in DRBUF (41_delay_buffer.md R150). -/
def curIndex (c : Config) (i : Nat) : Nat := c.delay + i

/-- The sine-table index of a phase value: its SINE_BITS most significant bits, rounded down (30_encoding.md R103). -/
def tableIndex (c : Config) (q : Nat) : Nat := q / 2 ^ sineShift c

end Sys2Proof.Machine
end

