-- ==== Sys2Proof/Syntax.lean ====
section
/-! DEFINITION. The operations of mcL2-CORE: one constructor per row of spec/opcode_table.json (30_encoding.md R106),
the mode that selects among the four PROCESS rows, the words of the two ports (R97, R100), and the host moves a script
is made of (R110, R111). -/

namespace Sys2Proof

/-- The four processing modes, a closed enumeration so that no other mode can be written down (10_state.md R32,
60_exceptions.md R262). Their two-bit codes are `modeCode` in Decode.lean. -/
inductive Mode where
  | passThrough
  | adaptiveNotch
  | tone
  | modulate
deriving DecidableEq, Repr

/-- The operations, one constructor per row of the operation map (30_encoding.md R106). No operation has an operand
(R97, R112). -/
inductive Instr where
  /-- INIT (44_mode_control.md R212). -/
  | init
  /-- PROCESS.PASS (45_block_entry.md R240). -/
  | processPass
  /-- PROCESS.NOTCH (45_block_entry.md R241). -/
  | processNotch
  /-- PROCESS.TONE (45_block_entry.md R242, R244). -/
  | processTone
  /-- PROCESS.MOD (45_block_entry.md R243). -/
  | processMod
  /-- CTRL_TICK (44_mode_control.md R216). -/
  | ctrlTick
  /-- EV_INC (44_mode_control.md R214). -/
  | evInc
  /-- EV_DEC (44_mode_control.md R215). -/
  | evDec
deriving DecidableEq, Repr

/-- A word on one of the two ports: format CMD, eight bits (30_encoding.md R97), or format EV, two bits (R100). -/
inductive PortWord where
  | cmd (w : BitVec 8)
  | ev (w : BitVec 2)
deriving DecidableEq, Repr

/-- The core's input signals at one moment (30_encoding.md R96). -/
structure Pins where
  /-- `rst`: reset is asserted. -/
  rst : Bool
  /-- `cmd_valid`: `cmd` holds a command. -/
  cmdValid : Bool
  /-- `cmd[7:0]`, the command word. -/
  cmd : BitVec 8
  /-- `ev[1:0]`, the event word; 00 is no event. -/
  ev : BitVec 2
deriving DecidableEq, Repr

/-- What the host does in one move of a script (30_encoding.md R110, R111). -/
inductive HostMove where
  /-- Present signals to the core: RESET, INIT, PROCESS, CTRL_TICK, EV_INC, EV_DEC and EV_BOTH are presentations, and
  a command and an event may be presented at one moment (60_exceptions.md R267). -/
  | present (p : Pins)
  /-- `LOAD v0 v1 ...`: write every word of INBUF. -/
  | load (vs : List Sample)
  /-- `READ`: read all of OUTBUF. -/
  | read
  /-- `PROCESS.PASS` and so on: PROCESS with the writer's claim that MODE is `m` (R111). -/
  | processAs (m : Mode)
deriving DecidableEq, Repr

/-- The pseudo-moves of a script that stand for other moves (30_encoding.md R111). The claimed rows of PROCESS are
`HostMove.processAs`, since their claim is checked when they are performed. -/
inductive PseudoMove where
  /-- `EV_BOTH`. -/
  | evBoth
  /-- `STEP_UP`: one mode forward. -/
  | stepUp
  /-- `STEP_DOWN`: one mode back. -/
  | stepDown
  /-- `BLOCK v0 v1 ...`: one block in and out. -/
  | block (vs : List Sample)
  /-- `GOTO_MODE m` from the known mode `c`. -/
  | gotoMode (c m : Mode)
deriving DecidableEq, Repr

end Sys2Proof
end

