-- ==== Sys2Proof/Machine/State.lean ====
section
/-! DEFINITION. The machine's state: every cell of 10_state.md R30, the configuration (that rule's third group), the
two host-owned memories (its fourth), and two fields of the model's own; the reasons a step can stop; the state right
after reset (70_reset_and_hazards.md R290, R291). -/

namespace Sys2Proof.Machine

/-- The spec has no fault, trap or abort of any kind (60_exceptions.md R260): the type has no constructor, so no step
can answer one. -/
inductive Fault where
deriving DecidableEq, Repr

/-- The reasons a step is refused. All are safe: the model stops where the spec gives no meaning. -/
inductive Refusal where
  /-- An arm of `exec` that has no meaning yet; none is left. Safe. -/
  | notModelled (mnemonic : String)
  /-- Raised when a command word other than 0x01, 0x02, 0x03 is accepted: a model refuses a script that holds one
  (30_encoding.md R108, 93_implementation_defined.md U1). Safe. -/
  | reservedCommand (w : BitVec 8)
  /-- Raised by a PROCESS row, and by the pseudo-move that names it, when MODE is not the row's mode: a model checks the
  claim and refuses the script when it is false (30_encoding.md R111). Carries the claimed mode. Safe. -/
  | falseModeClaim (claimed : Mode)
  /-- Raised by a LOAD that does not name one value per word of INBUF (30_encoding.md R110 gives such a line no
  meaning). Carries the number of values. Safe. -/
  | loadLength (given : Nat)
  /-- Raised by a LOAD or READ while BUSY = 1: the host touches a buffer inside a command, which is not defined
  (20_memory.md R80, 93_implementation_defined.md U4). No run from a state with BUSY = 0 reaches it. Safe. -/
  | bufferInUse
  /-- Raised by a step whose configuration is not well formed: a model refuses it (00_scope.md R12, U8). Safe. -/
  | illFormedConfig
  /-- Raised by a step of a value of this type that is no state of the configured machine: an array of the wrong length
  or an index out of its range (10_state.md R30). Safe. -/
  | illFormedState
deriving DecidableEq, Repr

/-- The Adaptive FIR Engine's cells (10_state.md R37 to R39), as the engine's operations pass them on. -/
structure FirCells where
  h : List Sample
  dl : List Sample
  wc : Nat
deriving DecidableEq, Repr

/-- The Modulator's cells and the phase accumulator it drives (10_state.md R35, R41 to R43, R47), as the modulator's
operations pass them on. -/
structure ModCells where
  sign : Bool
  testOut : Bool
  phase : Nat
  icoef : Sample
  bitcur : Nat
deriving DecidableEq, Repr

/-- The state of mcL2-CORE (10_state.md R30). -/
structure State where
  /-- The configuration, constant after reset: the tables and constants of 00_scope.md R9 and R10. -/
  cfg : Config
  /-- MODE (10_state.md R32). -/
  mode : Mode
  /-- INC_PEND (10_state.md R33). -/
  incPend : Bool
  /-- DEC_PEND (10_state.md R34). -/
  decPend : Bool
  /-- SIGN (10_state.md R35). -/
  sign : Bool
  /-- IND, the indicator register; `ind[1:0]` (10_state.md R46). -/
  ind : BitVec 2
  /-- TEST_OUT, the test line's register (10_state.md R47). -/
  testOut : Bool
  /-- BUSY (10_state.md R45); `cmd_ready` is its negation (30_encoding.md R96). -/
  busy : Bool
  /-- H, the filter coefficients (10_state.md R37). -/
  h : List Sample
  /-- DL, the delay line's physical cells (10_state.md R38). -/
  dl : List Sample
  /-- WC, the write cursor (10_state.md R39). -/
  wc : Nat
  /-- DRBUF, the Delay/Reference buffer (10_state.md R40). -/
  drbuf : List Sample
  /-- PHASE, the phase accumulator (10_state.md R41). -/
  phase : Nat
  /-- ICOEF, the in-phase coefficient (10_state.md R42). -/
  icoef : Sample
  /-- BITCUR, the bit stream cursor (10_state.md R43). -/
  bitcur : Nat
  /-- INBUF (10_state.md R48). -/
  inbuf : List Sample
  /-- OUTBUF (10_state.md R49). -/
  outbuf : List Sample
  /-- The model's own: the completion strobe `done` (30_encoding.md R96, R99) as seen after the last step. Log 6. -/
  done : Bool
  /-- The model's own: what the host is going to do, next move first (30_encoding.md R110). Log 4. -/
  script : List HostMove
deriving DecidableEq, Repr

/-- The state after reset of a machine with configuration `c` whose host memories hold `inb` and `outb`
(70_reset_and_hazards.md R290, R291): reset writes neither memory and no table. -/
def State.resetOf (c : Config) (inb outb : List Sample) : State where
  cfg := c
  mode := .passThrough
  incPend := false
  decPend := false
  sign := false
  ind := 0
  testOut := false
  busy := false
  h := List.replicate c.nTaps 0
  dl := List.replicate c.nTaps 0
  wc := 0
  drbuf := List.replicate c.drLen 0
  phase := 0
  icoef := 0x7FFF
  bitcur := 0
  inbuf := inb
  outbuf := outb
  done := false
  script := []

/-- The machine right after reset. The spec fixes no configuration, so this one state carries its TESTCFG (DESIGN
CHOICE, log 2), whose byte order is the model's (log 17); INBUF and OUTBUF hold free values (log 3); the host has nothing to present (log 4). -/
def State.reset : State :=
  State.resetOf Config.testcfg ((List.range Config.testcfg.blockLen).map Config.freeInWord)
    ((List.range Config.testcfg.blockLen).map Config.freeOutWord)

end Sys2Proof.Machine
end

