-- ==== Sys2Proof/WellFormed.lean ====
section
/-! DEFINITION. What makes a configuration well formed (00_scope.md R12), which mode a PROCESS row claims (30_encoding.md
R106, R111), and what makes a LOAD well formed (R110). An instruction has no operand, so nothing else of it can be ill
formed. -/

namespace Sys2Proof

/-- The conditions of 00_scope.md R12, each check in the order the rule lists it. That samples are 16 bits wide and that
an entry of BITS is 0 or 1 hold by the types of `Config`. -/
def Config.wf (c : Config) : Bool :=
  decide (c.blockLen % 2 = 0) && decide (2 ≤ c.blockLen) && decide (1 ≤ c.nTaps) && decide (1 ≤ c.sampleRate) &&
  decide (2 ≤ c.phaseW) && decide (c.sineBits ≤ c.phaseW) && decide (c.sine.length = 2 ^ c.sineBits) &&
  decide (c.shapeA.length = c.n) && decide (c.shapeB.length = c.n) && decide (c.bits.length = c.bitsLen) &&
  decide (1 ≤ c.bitsLen)

/-- The mode a row needs MODE to hold: the Selector column of 30_encoding.md R106. -/
def Instr.selector : Instr → Option Mode
  | .init => none
  | .processPass => some .passThrough
  | .processNotch => some .adaptiveNotch
  | .processTone => some .tone
  | .processMod => some .modulate
  | .ctrlTick => none
  | .evInc => none
  | .evDec => none

/-- A row is well formed in mode `m` when its selector, if it has one, is `m`: the claim of 30_encoding.md R111. -/
def Instr.selectedIn (i : Instr) (m : Mode) : Bool :=
  match i.selector with
  | none => true
  | some k => decide (k = m)

/-- `LOAD` names one value for every word of INBUF (30_encoding.md R110). -/
def HostMove.wf (c : Config) : HostMove → Bool
  | .present _ => true
  | .load vs => decide (vs.length = c.blockLen)
  | .read => true
  | .processAs _ => true

end Sys2Proof
end

