-- ==== Sys2Proof/Machine/Ops.lean ====
section
/-! DEFINITION. The shared operations: one-word reads and writes of a memory space (00_scope.md R15, 20_memory.md R70 to
R75), the ascending loops of R15, when a value of `State` is a state of the configured machine, reset (70_reset_and_hazards.md
R290), acceptance and completion of a command (30_encoding.md R98, R99), and the check of a PROCESS row's mode (R111).
There is no exception to take or return from (60_exceptions.md R260, R268, R269). -/

namespace Sys2Proof.Machine

/-- `MemRead(S, a)`: the word at index `a` of a space. No rule computes an index outside its space (20_memory.md R73),
so the 0 of an index past the end is never read by a step (log 8). -/
def memRead (sp : List Sample) (a : Nat) : Sample := sp.getD a 0

/-- `MemWrite(S, a, v)`: the space with the word at index `a` replaced. No rule writes outside its space. -/
def memWrite (sp : List Sample) (a : Nat) (v : Sample) : List Sample := sp.set a v

/-- The bit at index `a` of the space BITS (20_memory.md R71). -/
def bitRead (sp : List Bool) (a : Nat) : Bool := sp.getD a false

/-- A space's canonical form: it holds exactly its `len` words (20_memory.md R70). Equal memories are then equal
lists. -/
def spaceWf (len : Nat) (sp : List Sample) : Bool := decide (sp.length = len)

/-- `for v in 0..n-1`: the body runs with v = 0, 1, ..., n-1 in that order (00_scope.md R15). -/
def loopUp {α : Type} (n : Nat) (body : Nat → α → α) (a : α) : α :=
  match n with
  | 0 => a
  | k + 1 => body k (loopUp k body a)

/-- The same loop when each iteration also yields one value: the values in order, and what the last iteration left. -/
def loopCollect {α β : Type} (n : Nat) (body : Nat → α → β × α) (a : α) : List β × α :=
  match n with
  | 0 => ([], a)
  | k + 1 =>
    match loopCollect k body a with
    | (ys, b) =>
      match body k b with
      | (y, b') => (ys ++ [y], b')

/-- The vector v[0..n-1] whose element at index `i` is `f i`. -/
def vecOf {β : Type} (n : Nat) (f : Nat → β) : List β := (List.range n).map f

/-- A value of `State` is a state of the machine its configuration describes: the configuration is well formed
(00_scope.md R12), every array has its length, every index cell its range (10_state.md R30). -/
def State.shapeOk (s : State) : Bool :=
  s.cfg.wf && spaceWf s.cfg.nTaps s.h && spaceWf s.cfg.nTaps s.dl && decide (s.wc < s.cfg.nTaps) &&
  spaceWf s.cfg.drLen s.drbuf && decide (s.phase < s.cfg.fullTurn) && decide (s.bitcur < s.cfg.bitsLen) &&
  spaceWf s.cfg.blockLen s.inbuf && spaceWf s.cfg.blockLen s.outbuf

/-- Asserting `rst` (70_reset_and_hazards.md R290): every cell of the control and data groups takes its reset value; the
configuration, INBUF and OUTBUF stay; `done` is not pulsed. What the host will do next is the host's. -/
def applyReset (s : State) : State := { State.resetOf s.cfg s.inbuf s.outbuf with script := s.script }

/-- Acceptance of a command (30_encoding.md R98): BUSY becomes 1. -/
def acceptCommand (s : State) : State := { s with busy := true }

/-- Completion of a command (30_encoding.md R98, R99): BUSY becomes 0 and `done` is pulsed. -/
def completeCommand (s : State) : State := { s with busy := false, done := true }

/-- A PROCESS row runs when MODE holds the row's mode, and is refused as a false claim when it does not (30_encoding.md
R111, 45_block_entry.md R238). Log 9. -/
def whenMode (m : Mode) (body : State → State) (s : State) : Host.Outcome State Fault Refusal :=
  if s.mode = m then .next (body s) else .refused (.falseModeClaim m)

end Sys2Proof.Machine
end

