-- ==== Sys2Proof/Machine/Carrier.lean ====
section
/-! DEFINITION. The Carrier/Phase Generator (42_carrier.md R165 to R171): one accumulator, the sine read at it and the
cosine read a quarter turn ahead. -/

namespace Sys2Proof.Machine

/-- PHASE_INC, by either order of the operations (42_carrier.md R167, 00_scope.md R11). -/
def phaseInc (c : Config) : Nat :=
  match c.incOrder with
  | .mulFirst => (c.fullTurn * c.toneFreq / c.sampleRate) % c.fullTurn
  | .divFirst => (c.fullTurn / c.sampleRate * c.toneFreq) % c.fullTurn

/-- PHASE.ADV: one sample's advance, wrapping at one full turn (42_carrier.md R168). -/
def phaseAdv (c : Config) (p : Nat) : Nat := (p + phaseInc c) % c.fullTurn

/-- SIN(q): a table entry, unchanged (42_carrier.md R169). -/
def sinAt (c : Config) (q : Nat) : Sample := memRead c.sine (tableIndex c q)

/-- COS(q): the sine a quarter turn ahead, added before the shift (42_carrier.md R170). -/
def cosAt (c : Config) (q : Nat) : Sample := sinAt c ((q + quarterTurn c) % c.fullTurn)

/-- CARRIER.TICK: advance, then read both carriers at the new phase: ((S, C), PHASE) (42_carrier.md R171). -/
def carrierTick (c : Config) (p : Nat) : (Sample × Sample) × Nat :=
  let q := phaseAdv c p
  ((sinAt c q, cosAt c q), q)

end Sys2Proof.Machine
end

