-- ==== Sys2Proof/Machine/Delay.lean ====
section
/-! DEFINITION. The Delay/Reference Buffer Manager (41_delay_buffer.md R150 to R154). -/

namespace Sys2Proof.Machine

/-- DLY.SHIFT: DRBUF[i] <- DRBUF[N+i] for ascending i below DELAY (41_delay_buffer.md R152). -/
def dlyShift (c : Config) (dr : List Sample) : List Sample :=
  loopUp c.delay (fun i b => memWrite b i (memRead b (c.n + i))) dr

/-- DLY.LOAD: the block's mono input goes into the CUR window (41_delay_buffer.md R153). -/
def dlyLoad (c : Config) (s : List Sample) (dr : List Sample) : List Sample :=
  loopUp c.n (fun i b => memWrite b (curIndex c i) (memRead s i)) dr

/-- DLY.UPDATE on the buffer: the shift first, the load second (41_delay_buffer.md R154). -/
def dlyUpdate (c : Config) (s : List Sample) (dr : List Sample) : List Sample := dlyLoad c s (dlyShift c dr)

/-- The filter input x: the DLY window (41_delay_buffer.md R151). -/
def dlyWindow (c : Config) (dr : List Sample) : List Sample := vecOf c.n fun i => memRead dr (dlyIndex i)

/-- The desired vector d: the CUR window (41_delay_buffer.md R151). -/
def curWindow (c : Config) (dr : List Sample) : List Sample := vecOf c.n fun i => memRead dr (curIndex c i)

end Sys2Proof.Machine
end

