-- ==== Sys2Proof/Machine/Arith.lean ====
section
/-! DEFINITION. The arithmetic primitives (00_scope.md R16 to R22). Each converts its operands to integers, computes
exactly and clamps once at the end; none sets a flag or records that it clamped (R23). -/

namespace Sys2Proof.Machine

/-- Clamp to the 16-bit signed range (00_scope.md R16). -/
def sat16 (v : Int) : Int := if v < -32768 then -32768 else if 32767 < v then 32767 else v

/-- Clamp to the 32-bit signed range (00_scope.md R17). -/
def sat32 (v : Int) : Int := if v < -2147483648 then -2147483648 else if 2147483647 < v then 2147483647 else v

/-- The Q15 by Q15 product in Q31, clamped (00_scope.md R18). -/
def qmul32 (a b : Sample) : Acc := BitVec.ofInt 32 (sat32 (2 * a.toInt * b.toInt))

/-- The clamped accumulate (00_scope.md R19). -/
def add32 (p q : Acc) : Acc := BitVec.ofInt 32 (sat32 (p.toInt + q.toInt))

/-- Q31 to Q15, to the nearest with a tie toward plus infinity, then clamped (00_scope.md R20). Lean's integer division
by a positive number is the floor. -/
def narrow16 (acc : Acc) : Sample := BitVec.ofInt 16 (sat16 ((acc.toInt + 32768) / 65536))

/-- The clamped difference of two Samples (00_scope.md R21). -/
def sub16 (a b : Sample) : Sample := BitVec.ofInt 16 (sat16 (a.toInt - b.toInt))

/-- A Sample placed in Q31, exact (00_scope.md R22). -/
def ext32 (h : Sample) : Acc := BitVec.ofInt 32 (h.toInt * 65536)

end Sys2Proof.Machine
end

