-- ==== Sys2Proof/Machine/Fir.lean ====
section
/-! DEFINITION. The Adaptive FIR Engine (40_adaptive_fir.md R125 to R133): XL, the five sub-operations of one sample, one
sample, one block. -/

namespace Sys2Proof.Machine

/-- XL(k), the delay-line sample of age `k` (40_adaptive_fir.md R126). -/
def firXl (c : Config) (f : FirCells) (k : Nat) : Sample := memRead f.dl (ageIndex c.nTaps f.wc k)

/-- FIR.PREDICT's accumulator: terms in ascending tap order, clamped after every addition (40_adaptive_fir.md R127). -/
def firAcc (c : Config) (f : FirCells) : Acc :=
  loopUp c.nTaps (fun k acc => add32 acc (qmul32 (memRead f.h k) (firXl c f k))) 0

/-- FIR.PREDICT: the prediction Y (40_adaptive_fir.md R127). -/
def firPredict (c : Config) (f : FirCells) : Sample := narrow16 (firAcc c f)

/-- FIR.ERR: E <- d - Y, clamped (40_adaptive_fir.md R128). -/
def firErr (d y : Sample) : Sample := sub16 d y

/-- FIR.SCALE: EMU, the error times the step size, rounded once (40_adaptive_fir.md R129). -/
def firScale (c : Config) (e : Sample) : Sample := narrow16 (qmul32 c.mu e)

/-- A tap's new value from its old one, EMU and the sample it is paired with (40_adaptive_fir.md R130). -/
def tapUpdate (h emu x : Sample) : Sample := narrow16 (add32 (ext32 h) (qmul32 emu x))

/-- FIR.UPDATE: every tap moves by EMU times the sample it is paired with (40_adaptive_fir.md R130; log 15). -/
def firUpdate (c : Config) (emu : Sample) (f : FirCells) : FirCells :=
  { f with h := loopUp c.nTaps (fun k h => memWrite h k (tapUpdate (memRead h k) emu (firXl c f k))) f.h }

/-- FIR.PUSH: the new input overwrites the oldest sample and the cursor steps (40_adaptive_fir.md R131). -/
def firPush (c : Config) (x : Sample) (f : FirCells) : FirCells :=
  { f with dl := memWrite f.dl f.wc x, wc := nextCursor f.wc c.nTaps }

/-- LMS.STEP: predict, error, scale, update, push, in that order (40_adaptive_fir.md R132). -/
def lmsStep (c : Config) (x d : Sample) (f : FirCells) : Sample × FirCells :=
  let e := firErr d (firPredict c f)
  (e, firPush c x (firUpdate c (firScale c e) f))

/-- LMS.BLOCK: the N samples of a block in ascending order; the result is the error vector (40_adaptive_fir.md R133). -/
def lmsBlock (c : Config) (x d : List Sample) (f : FirCells) : List Sample × FirCells :=
  loopCollect c.n (fun i g => lmsStep c (memRead x i) (memRead d i) g) f

end Sys2Proof.Machine
end

