-- ==== Sys2Proof/Decode.lean ====
section
/-! DEFINITION. The decoder and, after it, the encoder, written from 30_encoding.md R97, R100, R104 and R106. A command
word is compared in all eight bits; PROCESS is one word whose row the MODE cell selects (R106, 45_block_entry.md R238);
an event word may hold two events (R100). Last, the host moves the pseudo-moves of R111 stand for. -/

namespace Sys2Proof

/-- Why a word is rejected: it is a reserved command word (30_encoding.md R108). No event word is reserved (R109). -/
inductive DecodeReject where
  | reservedCommand (w : BitVec 8)
deriving DecidableEq, Repr

/-- MODE's two-bit encoding (30_encoding.md R104); IND carries the same number (R105). -/
def modeCode : Mode → BitVec 2
  | .passThrough => 0b00
  | .adaptiveNotch => 0b01
  | .tone => 0b10
  | .modulate => 0b11

/-- The mode a two-bit number stands for; every pattern is a mode (30_encoding.md R104). -/
def modeOfCode (b : BitVec 2) : Mode :=
  if b = 0b00 then .passThrough
  else if b = 0b01 then .adaptiveNotch
  else if b = 0b10 then .tone
  else .modulate

/-- The mode multiplexer of PROCESS: the row that MODE selects (45_block_entry.md R238). There is no default branch. -/
def processRow : Mode → Instr
  | .passThrough => .processPass
  | .adaptiveNotch => .processNotch
  | .tone => .processTone
  | .modulate => .processMod

/-- Read a command word when MODE is `m` (30_encoding.md R97, R106); every other word is reserved (R108).
Log 11. -/
def decodeCommand (m : Mode) (w : BitVec 8) : Except DecodeReject Instr :=
  if w = 0x01#8 then .ok .init
  else if w = 0x02#8 then .ok (processRow m)
  else if w = 0x03#8 then .ok .ctrlTick
  else .error (.reservedCommand w)

/-- Read an event word: bit 0 is EV_INC, bit 1 is EV_DEC, both may be set, 00 is no event (30_encoding.md R100). -/
def decodeEvent (w : BitVec 2) : List Instr :=
  (if w.getLsbD 0 then [Instr.evInc] else []) ++ (if w.getLsbD 1 then [Instr.evDec] else [])

/-- Read a word of either port when MODE is `m`: the operations it stands for, in the order they are performed. -/
def decode (m : Mode) : PortWord → Except DecodeReject (List Instr)
  | .cmd w => (decodeCommand m w).map fun i => [i]
  | .ev w => .ok (decodeEvent w)

/-- The instruction the decoder reads from an instruction's bits as spec/opcode_table.json numbers them. The table gives
no port, so a row of at most two bits is read on the event port and any other on the command port, and PROCESS is read in
the reset mode. An event word of both events is no single instruction. Log 10. -/
def decodeTableWord (nbits w : Nat) : Option Instr :=
  if nbits ≤ 2 then
    match decodeEvent (BitVec.ofNat 2 w) with
    | [i] => if w < 4 then some i else none
    | _ => none
  else if w < 256 then
    match decodeCommand .passThrough (BitVec.ofNat 8 w) with
    | .ok i => some i
    | .error _ => none
  else none

/-- The word of an instruction (the Encoding column of 30_encoding.md R106; R97, R100). -/
def encode : Instr → PortWord
  | .init => .cmd 0b00000001
  | .processPass => .cmd 0b00000010
  | .processNotch => .cmd 0b00000010
  | .processTone => .cmd 0b00000010
  | .processMod => .cmd 0b00000010
  | .ctrlTick => .cmd 0b00000011
  | .evInc => .ev 0b01
  | .evDec => .ev 0b10

/-- The one event word of two event operations presented at once (30_encoding.md R100, EV_BOTH of R111). -/
def encodeEvents (inc dec : Bool) : BitVec 2 := BitVec.ofBool dec ++ BitVec.ofBool inc

/-- No signal is driven. -/
def Pins.idle : Pins := { rst := false, cmdValid := false, cmd := 0, ev := 0 }

/-- The signals that present a word of a port (30_encoding.md R96). -/
def pinsOf : PortWord → Pins
  | .cmd w => { Pins.idle with cmdValid := true, cmd := w }
  | .ev w => { Pins.idle with ev := w }

/-- The host move that presents an instruction's word (30_encoding.md R110). -/
def presentInstr (i : Instr) : HostMove := .present (pinsOf (encode i))

/-- The move RESET (30_encoding.md R110): assert and release `rst`. -/
def resetMove : HostMove := .present { Pins.idle with rst := true }

/-- The move PROCESS (30_encoding.md R110): the one word 0x02, whatever MODE is (R97). -/
def processMove : HostMove := .present (pinsOf (.cmd 0x02))

/-- The two moves of an event and the control tick that consumes it (30_encoding.md R111). -/
def eventThenTick (i : Instr) : List HostMove := [presentInstr i, presentInstr .ctrlTick]

/-- The host moves a pseudo-move stands for (30_encoding.md R111). GOTO_MODE repeats STEP_UP (m - c) mod 4 times, which
is the difference of the two-bit mode codes. -/
def expandPseudo : PseudoMove → List HostMove
  | .evBoth => [.present (pinsOf (.ev (encodeEvents true true)))]
  | .stepUp => eventThenTick .evInc
  | .stepDown => eventThenTick .evDec
  | .block vs => [.load vs, processMove, .read]
  | .gotoMode c m => (List.replicate (modeCode m - modeCode c).toNat (eventThenTick .evInc)).flatten

end Sys2Proof
end

