-- ==== Sys2Proof/Machine/Flags.lean ====
section
/-! DEFINITION. The flags of the block: INC_PEND, DEC_PEND and SIGN are the only ones, and no arithmetic writes a flag
(10_state.md R36, 00_scope.md R23). How the events set the pending flags (44_mode_control.md R214, R215), how a control
tick consumes them and steps MODE modulo 4 (R216), and how a symbol toggles SIGN (43_modulator.md R190). -/

namespace Sys2Proof.Machine

/-- MODE plus one modulo 4 (30_encoding.md R104). -/
def modeUp (m : Mode) : Mode := modeOfCode (modeCode m + 1)

/-- MODE minus one modulo 4 (30_encoding.md R104). -/
def modeDown (m : Mode) : Mode := modeOfCode (modeCode m - 1)

/-- INC_PEND <- 1 (44_mode_control.md R214). -/
def latchInc (s : State) : State := { s with incPend := true }

/-- DEC_PEND <- 1 (44_mode_control.md R215). -/
def latchDec (s : State) : State := { s with decPend := true }

/-- The first part of CTRL_TICK: consume INC_PEND; the flag CH of 44_mode_control.md R216 says whether it was set. -/
def consumeInc (s : State) : Bool × State :=
  if s.incPend then (true, { s with incPend := false, mode := modeUp s.mode }) else (false, s)

/-- The second part of CTRL_TICK: consume DEC_PEND. -/
def consumeDec (s : State) : Bool × State :=
  if s.decPend then (true, { s with decPend := false, mode := modeDown s.mode }) else (false, s)

/-- IND <- MODE (44_mode_control.md R216, 30_encoding.md R105). -/
def refreshInd (s : State) : State := { s with ind := modeCode s.mode }

/-- SIGN after a symbol's start: toggled exactly when the symbol makes a transition (43_modulator.md R190). -/
def toggleSign (tr sign : Bool) : Bool := if tr then !sign else sign

end Sys2Proof.Machine
end

