-- ==== Sys2Proof/Machine/Modulator.lean ====
section
/-! DEFINITION. The Modulator (43_modulator.md R185 to R193): one symbol per block. -/

namespace Sys2Proof.Machine

/-- MOD.SYMBOL_START: the bit under the cursor, the cursor's step, and the test line (43_modulator.md R189). -/
def modSymbolStart (c : Config) (m : ModCells) : Bool × ModCells :=
  let b := bitRead c.bits m.bitcur
  (b, { m with bitcur := nextCursor m.bitcur c.bitsLen, testOut := b })

/-- MOD.DECIDE: TR and SEL, and the toggle of SIGN (43_modulator.md R190). SEL is SIGN before the toggle. -/
def modDecide (b : Bool) (m : ModCells) : (Bool × Bool) × ModCells :=
  let tr := !b
  ((tr, m.sign), { m with sign := toggleSign tr m.sign })

/-- MOD.COEF(n): the in-phase coefficient of sample `n` (43_modulator.md R191). -/
def modCoef (c : Config) (tr sel : Bool) (n : Nat) (icoef : Sample) : Sample :=
  if tr then (if sel then memRead c.shapeB n else memRead c.shapeA n) else icoef

/-- The output sample of a coefficient and a pair of carriers (43_modulator.md R187, R192). -/
def modMix (c : Config) (icoef sn cs : Sample) : Sample := narrow16 (add32 (qmul32 icoef cs) (qmul32 c.qCoef sn))

/-- MOD.SAMPLE(n): the carrier's tick, the coefficient, the mix (43_modulator.md R192). -/
def modSample (c : Config) (tr sel : Bool) (n : Nat) (m : ModCells) : Sample × ModCells :=
  match carrierTick c m.phase with
  | ((sn, cs), q) =>
    let k := modCoef c tr sel n m.icoef
    (modMix c k sn cs, { m with phase := q, icoef := k })

/-- MOD.BLOCK: the symbol's start, its decision, its N samples (43_modulator.md R193). -/
def modBlock (c : Config) (m : ModCells) : List Sample × ModCells :=
  match modSymbolStart c m with
  | (b, m₁) =>
    match modDecide b m₁ with
    | ((tr, sel), m₂) => loopCollect c.n (fun n k => modSample c tr sel n k) m₂

end Sys2Proof.Machine
end

