-- ==== Sys2Proof/Machine/Block.lean ====
section
/-! DEFINITION. The Block Processing Entry Point (45_block_entry.md R235 to R244): the de-interleaver, the four pipelines,
the re-interleaver, and the four rows of PROCESS. -/

namespace Sys2Proof.Machine

/-- DEINT's left channel, LIN (45_block_entry.md R236). -/
def deintLeft (c : Config) (inb : List Sample) : List Sample := vecOf c.n fun j => memRead inb (leftIndex j)

/-- DEINT's right channel, RIN (45_block_entry.md R236). -/
def deintRight (c : Config) (inb : List Sample) : List Sample := vecOf c.n fun j => memRead inb (rightIndex j)

/-- REINT: LOUT and ROUT interleaved into OUTBUF, every word written (45_block_entry.md R237). -/
def reint (c : Config) (lout rout : List Sample) (outb : List Sample) : List Sample :=
  loopUp c.n (fun j o => memWrite (memWrite o (leftIndex j) (memRead lout j)) (rightIndex j) (memRead rout j)) outb

/-- The engine's cells of a state. -/
def State.firCells (s : State) : FirCells := { h := s.h, dl := s.dl, wc := s.wc }

/-- A state with the engine's cells replaced. -/
def State.withFir (s : State) (f : FirCells) : State := { s with h := f.h, dl := f.dl, wc := f.wc }

/-- The modulator's cells of a state. -/
def State.modCells (s : State) : ModCells :=
  { sign := s.sign, testOut := s.testOut, phase := s.phase, icoef := s.icoef, bitcur := s.bitcur }

/-- A state with the modulator's cells replaced. -/
def State.withMod (s : State) (m : ModCells) : State :=
  { s with sign := m.sign, testOut := m.testOut, phase := m.phase, icoef := m.icoef, bitcur := m.bitcur }

/-- A pipeline: from LIN, RIN and the state to LOUT, ROUT and the state it leaves. -/
abbrev Pipe := List Sample → List Sample → State → (List Sample × List Sample) × State

/-- PIPE.PASS (45_block_entry.md R240). -/
def pipePass : Pipe := fun lin rin s =>
  ((vecOf s.cfg.n (fun j => memRead lin j), vecOf s.cfg.n (fun j => memRead rin j)), s)

/-- PIPE.NOTCH (45_block_entry.md R241): the left channel through the delay buffer and the engine; the error to both
channels. -/
def pipeNotch : Pipe := fun lin _ s =>
  let dr := dlyUpdate s.cfg lin s.drbuf
  match lmsBlock s.cfg (dlyWindow s.cfg dr) (curWindow s.cfg dr) s.firCells with
  | (e, f) => ((e, e), { s.withFir f with drbuf := dr })

/-- PIPE.TONE (45_block_entry.md R242): the sine carrier to both channels. -/
def pipeSine : Pipe := fun _ _ s =>
  match loopCollect s.cfg.n (fun _ p => let t := carrierTick s.cfg p; (t.1.1, t.2)) s.phase with
  | (ys, p) => ((ys, ys), { s with phase := p })

/-- PIPE.SILENCE (45_block_entry.md R244): zeros to both channels, no cell changed. -/
def pipeSilence : Pipe := fun _ _ s => ((List.replicate s.cfg.n 0, List.replicate s.cfg.n 0), s)

/-- Mode 2's pipeline, as MODE2_BEHAVIOUR configures it (45_block_entry.md R242, R244). -/
def pipeTone : Pipe := fun lin rin s =>
  match s.cfg.mode2 with
  | .tone => pipeSine lin rin s
  | .silence => pipeSilence lin rin s

/-- PIPE.MOD (45_block_entry.md R243): one symbol, the same samples to both channels. -/
def pipeMod : Pipe := fun _ _ s =>
  match modBlock s.cfg s.modCells with
  | (ms, m) => ((ms, ms), s.withMod m)

/-- PROCESS (45_block_entry.md R239): de-interleave, run the one pipeline, re-interleave. -/
def processBlock (pipe : Pipe) (s : State) : State :=
  match pipe (deintLeft s.cfg s.inbuf) (deintRight s.cfg s.inbuf) s with
  | ((lout, rout), t) => { t with outbuf := reint s.cfg lout rout s.outbuf }

/-- PROCESS.PASS (45_block_entry.md R240). -/
def execProcessPass (s : State) : Host.Outcome State Fault Refusal := whenMode .passThrough (processBlock pipePass) s

/-- PROCESS.NOTCH (45_block_entry.md R241). -/
def execProcessNotch (s : State) : Host.Outcome State Fault Refusal := whenMode .adaptiveNotch (processBlock pipeNotch) s

/-- PROCESS.TONE (45_block_entry.md R242, R244). -/
def execProcessTone (s : State) : Host.Outcome State Fault Refusal := whenMode .tone (processBlock pipeTone) s

/-- PROCESS.MOD (45_block_entry.md R243). -/
def execProcessMod (s : State) : Host.Outcome State Fault Refusal := whenMode .modulate (processBlock pipeMod) s

end Sys2Proof.Machine
end

