-- ==== Sys2Proof/Machine/ModeControl.lean ====
section
/-! DEFINITION. The operations of 44_mode_control.md: INIT, EV_INC, EV_DEC, CTRL_TICK. -/

namespace Sys2Proof.Machine

/-- INIT (44_mode_control.md R212): the engine's H, DL and WC to zero and nothing else. -/
def execInit (s : State) : Host.Outcome State Fault Refusal :=
  .next { s with
    h := loopUp s.cfg.nTaps (fun k h => memWrite h k 0) s.h
    dl := loopUp s.cfg.nTaps (fun j dl => memWrite dl j 0) s.dl
    wc := 0 }

/-- EV_INC (44_mode_control.md R214). -/
def execEvInc (s : State) : Host.Outcome State Fault Refusal := .next (latchInc s)

/-- EV_DEC (44_mode_control.md R215). -/
def execEvDec (s : State) : Host.Outcome State Fault Refusal := .next (latchDec s)

/-- The work of CTRL_TICK (44_mode_control.md R216): the increment first, then the decrement, then one refresh of IND if
either flag was consumed. -/
def ctrlTick (s : State) : State :=
  match consumeInc s with
  | (up, s₁) =>
    match consumeDec s₁ with
    | (down, s₂) => if up || down then refreshInd s₂ else s₂

/-- CTRL_TICK (44_mode_control.md R216). -/
def execCtrlTick (s : State) : Host.Outcome State Fault Refusal := .next (ctrlTick s)

end Sys2Proof.Machine
end

