-- ==== Sys2Proof/Machine/Dispatch.lean ====
section
/-! DEFINITION. One arm per row of the operation map. -/

namespace Sys2Proof.Machine

def exec (i : Instr) (s : State) : Host.Outcome State Fault Refusal :=
  match i with
  | .init => Sys2Proof.Machine.execInit s
  | .processPass => Sys2Proof.Machine.execProcessPass s
  | .processNotch => Sys2Proof.Machine.execProcessNotch s
  | .processTone => Sys2Proof.Machine.execProcessTone s
  | .processMod => Sys2Proof.Machine.execProcessMod s
  | .ctrlTick => Sys2Proof.Machine.execCtrlTick s
  | .evInc => Sys2Proof.Machine.execEvInc s
  | .evDec => Sys2Proof.Machine.execEvDec s

end Sys2Proof.Machine
end

