-- ==== Sys2Proof/Machine/Ports.lean ====
section
/-! DEFINITION. How the core meets the host: what each host move does (30_encoding.md R96 to R100, R110, R111), in what
order simultaneous things are taken (60_exceptions.md R267), and how the next move is fetched. -/

namespace Sys2Proof.Machine

/-- Perform operations one after another, stopping at the first that does not answer a next state. -/
def execAll : List Instr → State → Host.Outcome State Fault Refusal
  | [], s => .next s
  | i :: is, s =>
    match exec i s with
    | .next t => execAll is t
    | .fault r => .fault r
    | .refused r => .refused r

/-- Carry on with `f` from a next state. -/
def thenState (o : Host.Outcome State Fault Refusal) (f : State → State) : Host.Outcome State Fault Refusal :=
  match o with
  | .next t => .next (f t)
  | .fault r => .fault r
  | .refused r => .refused r

/-- Put a move back in front of what the host will present. -/
def holdMove (m : HostMove) (s : State) : State := { s with script := m :: s.script }

/-- The presentation that holds only the events of `p`. -/
def eventsOnly (p : Pins) : Pins := { Pins.idle with ev := p.ev }

/-- An event presented together with a command is ordered after it (20_memory.md R83, 60_exceptions.md R267): it stays
presented and is the next step. -/
def holdEvents (p : Pins) (s : State) : State := if p.ev = 0 then s else holdMove (.present (eventsOnly p)) s

/-- Perform an accepted command: BUSY rises, the command runs as one step, BUSY falls and `done` is pulsed
(30_encoding.md R98, R99). -/
def runCommand (i : Instr) (s : State) : Host.Outcome State Fault Refusal :=
  thenState (exec i (acceptCommand s)) completeCommand

/-- While BUSY = 1 a presented command is not accepted; the host keeps it presented (30_encoding.md R98, U9), and an
event presented with it is latched (R100). Log 7. -/
def holdCommand (p : Pins) (s : State) : Host.Outcome State Fault Refusal :=
  execAll (decodeEvent p.ev) (holdMove (.present { p with ev := 0 }) s)

/-- One presentation of the input signals. Reset wins over everything presented with it (70_reset_and_hazards.md R290,
60_exceptions.md R267), and what is presented with it is not held (log 18). -/
def runPins (p : Pins) (s : State) : Host.Outcome State Fault Refusal :=
  if p.rst then .next (applyReset s)
  else if p.cmdValid then
    if s.busy then holdCommand p s
    else
      match decodeCommand s.mode p.cmd with
      | .ok i => thenState (runCommand i s) (holdEvents p)
      | .error (.reservedCommand w) => .refused (.reservedCommand w)
  else execAll (decodeEvent p.ev) s

/-- PROCESS with the writer's claim that MODE is `m` (30_encoding.md R111); held while BUSY = 1 like any command. -/
def runProcessAs (m : Mode) (s : State) : Host.Outcome State Fault Refusal :=
  if s.busy then .next (holdMove (.processAs m) s) else runCommand (processRow m) s

/-- LOAD (30_encoding.md R110): the host writes every word of INBUF, while BUSY = 0 (10_state.md R48). -/
def runLoad (vs : List Sample) (s : State) : Host.Outcome State Fault Refusal :=
  if s.busy then .refused .bufferInUse
  else if vs.length = s.cfg.blockLen then .next { s with inbuf := vs }
  else .refused (.loadLength vs.length)

/-- READ (30_encoding.md R110): it changes nothing; the host reads OUTBUF while BUSY = 0 (10_state.md R49). -/
def runRead (s : State) : Host.Outcome State Fault Refusal :=
  if s.busy then .refused .bufferInUse else .next s

/-- One host move (30_encoding.md R110). -/
def runMove (m : HostMove) (s : State) : Host.Outcome State Fault Refusal :=
  match m with
  | .present p => runPins p s
  | .load vs => runLoad vs s
  | .read => runRead s
  | .processAs k => runProcessAs k s

/-- Take the next move off the script; `done` is a strobe, so it falls. -/
def fetchMove (s : State) : Option (HostMove × State) :=
  match s.script with
  | [] => none
  | m :: rest => some (m, { s with script := rest, done := false })

/-- With nothing presented the block is idle and holds all its state (60_exceptions.md R281). -/
def idleStep (s : State) : State := { s with done := false }

/-- One step of a state of the configured machine. -/
def stepShaped (s : State) : Host.Outcome State Fault Refusal :=
  match fetchMove s with
  | none => .next (idleStep s)
  | some (m, t) => runMove m t

/-- The signals that present an instruction's bits as the opcode table numbers them: at most two bits on the event port,
more on the command port (log 10). -/
def tablePins (nbits w : Nat) : Pins :=
  if nbits ≤ 2 then pinsOf (.ev (BitVec.ofNat 2 w)) else pinsOf (.cmd (BitVec.ofNat 8 w))

end Sys2Proof.Machine
end

