-- ==== Sys2Proof/Machine/Step.lean ====
section
/-! DEFINITION. One step of the machine: the host's next move is performed whole (00_scope.md R8, 30_encoding.md R110). -/

namespace Sys2Proof.Machine

/-- A step of a value that is no state of a configured machine is refused (00_scope.md R12, 93_implementation_defined.md
U8; logs 8 and 12); otherwise the host's next move runs, or the block idles. -/
def step (s : State) : Host.Outcome State Fault Refusal :=
  if s.cfg.wf then
    if s.shapeOk then stepShaped s else .refused .illFormedState
  else .refused .illFormedConfig

/-- The state with an instruction's bits presented as the very next host move (log 4, log 10). -/
def State.withFetchWord (s : State) (nbits w : Nat) : State :=
  { s with script := .present (tablePins nbits w) :: s.script }

end Sys2Proof.Machine
end

