-- ==== Sys2Proof/Safety.lean ====
section
/-! DEFINITION. The terms the claims are stated in: the invariant of every run, what the next host move is, and the
spec's own tables and counts (the mode table of 44_mode_control.md R211, the sample history of 41_delay_buffer.md R155,
an engine fed one pair of samples at a time). The machine never uses them. -/

namespace Sys2Proof

/-- INIT or a PROCESS row: the commands that neither set nor consume an event. -/
def Instr.ignoresEvents : Instr → Bool
  | .init => true
  | .processPass => true
  | .processNotch => true
  | .processTone => true
  | .processMod => true
  | .ctrlTick => false
  | .evInc => false
  | .evDec => false

/-- A row of PROCESS. -/
def Instr.isProcess (i : Instr) : Bool := i.selector.isSome

/-- The shaping tables end where their names say (43_modulator.md R195). -/
abbrev Config.TablesEndRight (c : Config) : Prop :=
  (Machine.memRead c.shapeA (c.n - 1)).toInt < 0 ∧ 0 < (Machine.memRead c.shapeB (c.n - 1)).toInt

end Sys2Proof

namespace Sys2Proof.Machine

/-- What holds after reset and after every command and event (10_state.md R52): the state has the configured machine's
shape (lengths and ranges of R30), IND shows MODE (R46), BUSY is 0 (R45). -/
abbrev State.Inv (s : State) : Prop := s.shapeOk = true ∧ s.ind = modeCode s.mode ∧ s.busy = false

/-- An engine's cells fit the configuration (10_state.md R37 to R39). -/
abbrev FirCells.Fits (c : Config) (f : FirCells) : Prop :=
  f.h.length = c.nTaps ∧ f.dl.length = c.nTaps ∧ f.wc < c.nTaps

/-- The delay line holds only zeros. -/
abbrev FirCells.LineZero (c : Config) (f : FirCells) : Prop := ∀ j, j < c.nTaps → memRead f.dl j = 0

/-- The next host move asserts `rst`. -/
def State.resetNext (s : State) : Bool :=
  match s.script with
  | .present p :: _ => p.rst
  | _ => false

/-- The next host move is a command the core accepts (30_encoding.md R98). -/
def State.commandNext (s : State) : Bool :=
  match s.script with
  | .present p :: _ => !p.rst && p.cmdValid && !s.busy
  | .processAs _ :: _ => !s.busy
  | _ => false

/-- The next host move is an accepted CTRL_TICK. -/
def State.tickNext (s : State) : Bool :=
  match s.script with
  | .present p :: _ => !p.rst && p.cmdValid && !s.busy && decide (p.cmd = 0x03#8)
  | _ => false

/-- The transition table of 44_mode_control.md R211, row by row: MODE before, inc consumed, dec consumed. -/
def modeTable : Mode → Bool → Bool → Mode
  | .passThrough, true, false => .adaptiveNotch
  | .passThrough, false, true => .modulate
  | .passThrough, true, true => .passThrough
  | .passThrough, false, false => .passThrough
  | .adaptiveNotch, true, false => .tone
  | .adaptiveNotch, false, true => .passThrough
  | .adaptiveNotch, true, true => .adaptiveNotch
  | .adaptiveNotch, false, false => .adaptiveNotch
  | .tone, true, false => .modulate
  | .tone, false, true => .adaptiveNotch
  | .tone, true, true => .tone
  | .tone, false, false => .tone
  | .modulate, true, false => .passThrough
  | .modulate, false, true => .tone
  | .modulate, true, true => .modulate
  | .modulate, false, false => .modulate

/-- MODE as a number (30_encoding.md R104). -/
def modeNumber (m : Mode) : Nat := (modeCode m).toNat

/-- A list of events and control ticks in which no event comes while its own line's flag is still set (the condition of
44_mode_control.md R217, without which edges merge, R219). The flags are those at the start of the list. -/
def edgesSpaced : List Instr → Bool → Bool → Bool
  | [], _, _ => true
  | .evInc :: is, inc, dec => !inc && edgesSpaced is true dec
  | .evDec :: is, inc, dec => !dec && edgesSpaced is inc true
  | .ctrlTick :: is, _, _ => edgesSpaced is false false
  | _ :: _, _, _ => false

/-- LMS.STEP on a list of pairs (x, d), first pair first: the errors and the cells left (40_adaptive_fir.md R133). -/
def lmsFeed (c : Config) : List (Sample × Sample) → FirCells → List Sample × FirCells
  | [], f => ([], f)
  | (x, d) :: ps, f =>
    let r := lmsStep c x d f
    let q := lmsFeed c ps r.2
    (r.1 :: q.1, q.2)

/-- The mono sample at time `t` of the blocks given so far, 0 outside them (41_delay_buffer.md R155). -/
def historyAt (blocks : List (List Sample)) (t : Int) : Sample := if t < 0 then 0 else memRead blocks.flatten t.toNat

/-- DRBUF after the manager was given the blocks in order, from reset. -/
def drbufAfter (c : Config) (blocks : List (List Sample)) : List Sample :=
  blocks.foldl (fun dr b => dlyUpdate c b dr) (List.replicate c.drLen 0)

/-- A number of steps one after another, stopping at the first that does not answer a next state. -/
def stepMany : Nat → State → Host.Outcome State Fault Refusal
  | 0, s => .next s
  | n + 1, s =>
    match step s with
    | .next t => stepMany n t
    | .fault r => .fault r
    | .refused r => .refused r

/-- The clamped sum of 40_adaptive_fir.md R127 over the taps `h`, in ascending order, where `x k` is the sample that tap
`k` is paired with, narrowed once. -/
def convolve (c : Config) (h : List Sample) (x : Nat → Sample) : Sample :=
  narrow16 ((List.range c.nTaps).foldl (fun acc k => add32 acc (qmul32 (memRead h k) (x k))) 0)

/-- The sample of age `k` of an engine's line: the cell `k + 1` behind the write cursor (10_state.md R39). -/
def ageSample (c : Config) (f : FirCells) (k : Nat) : Sample := memRead f.dl ((f.wc + c.nTaps - 1 - k) % c.nTaps)

/-- PHASE after `k` samples from `p` (42_carrier.md R168). -/
def phaseAfter (c : Config) (p k : Nat) : Nat := (p + k * phaseInc c) % c.fullTurn

/-- The bit under the modulator's cursor. -/
def State.nextBit (s : State) : Bool := bitRead s.cfg.bits s.bitcur

/-- The in-phase coefficient of sample `n` of the symbol that starts in `s` (43_modulator.md R190, R191): held on bit 1;
SHAPE_A from SIGN = 0 and SHAPE_B from SIGN = 1 on bit 0. -/
def State.symbolCoef (s : State) (n : Nat) : Sample :=
  if s.nextBit then s.icoef else if s.sign then memRead s.cfg.shapeB n else memRead s.cfg.shapeA n

/-- SIGN and the end at which ICOEF rests agree (43_modulator.md R195). -/
abbrev State.SignAgrees (s : State) : Prop := s.icoef.toInt < 0 ↔ s.sign = true

/-- What no operation writes (10_state.md R54): the configuration, the host's INBUF, the fields that the acceptance and
completion of a command own, and what the host is going to do. -/
abbrev State.SameHostSide (s t : State) : Prop :=
  t.cfg = s.cfg ∧ t.inbuf = s.inbuf ∧ t.busy = s.busy ∧ t.done = s.done ∧ t.script = s.script

end Sys2Proof.Machine
end

