-- ==== Sys2Proof/Certificates/Slice0/Obligations.lean ====
section
/-! DEFINITION. The statements for the provers. Each is about the machine, for every configuration the hypotheses admit;
none is about a program. "The model's choice" in a docstring names the log entry a clause rests on. -/

open Sys2Proof Sys2Proof.Machine

/-! ### Words and their decoding -/

/-- 30_encoding.md R97, R100, R106: the words of the operation map, written out bit by bit, read as their rows. -/
def Obligations.WordsOfTheOperationMapReadAsTheirRows : Prop :=
  (∀ m, decodeCommand m 0b00000001 = .ok .init) ∧
  decodeCommand .passThrough 0b00000010 = .ok .processPass ∧
  decodeCommand .adaptiveNotch 0b00000010 = .ok .processNotch ∧
  decodeCommand .tone 0b00000010 = .ok .processTone ∧
  decodeCommand .modulate 0b00000010 = .ok .processMod ∧
  (∀ m, decodeCommand m 0b00000011 = .ok .ctrlTick) ∧
  decodeEvent 0b00 = [] ∧ decodeEvent 0b01 = [.evInc] ∧ decodeEvent 0b10 = [.evDec] ∧
  decodeEvent 0b11 = [.evInc, .evDec]

/-- Both directions, for every instruction, mode and word: an encoded instruction decodes to itself in the modes its
selector admits; a command word that decodes is its instruction's encoding and the mode is admitted; an event word is
the word of exactly the events it decodes to (30_encoding.md R97, R100, R106, R109). -/
def Obligations.DecodeAndEncodeAgree : Prop :=
  (∀ (i : Instr) (m : Mode), i.selectedIn m = true → decode m (encode i) = .ok [i]) ∧
  (∀ (m : Mode) (w : BitVec 8) (i : Instr), decodeCommand m w = .ok i → encode i = .cmd w ∧ i.selectedIn m = true) ∧
  (∀ w : BitVec 2, encodeEvents (decide (Instr.evInc ∈ decodeEvent w)) (decide (Instr.evDec ∈ decodeEvent w)) = w) ∧
  (∀ inc dec : Bool, decodeEvent (encodeEvents inc dec) =
    (if inc then [Instr.evInc] else []) ++ (if dec then [Instr.evDec] else []))

/-- 30_encoding.md R108: every command word other than 0x01, 0x02 and 0x03 is reserved, and a script that presents one
is refused. That the refusal is at the step that would accept the word is the model's choice (log 11). -/
def Obligations.ReservedCommandWordsAreRefused : Prop :=
  (∀ (m : Mode) (w : BitVec 8), w ≠ 0x01 → w ≠ 0x02 → w ≠ 0x03 → decodeCommand m w = .error (.reservedCommand w)) ∧
  (∀ (s : State) (p : Pins) (rest : List HostMove), s.Inv → s.script = .present p :: rest → p.rst = false →
    p.cmdValid = true → p.cmd ≠ 0x01 → p.cmd ≠ 0x02 → p.cmd ≠ 0x03 → step s = .refused (.reservedCommand p.cmd))

/-! ### The step and the ports -/

/-- When the word presented next decodes to one instruction, the step is that instruction's `exec`: on the command port
between acceptance (BUSY rises) and completion (BUSY falls, `done` is pulsed), on the event port alone. The move leaves
the script and the strobe falls first (30_encoding.md R98, R99, R100; the script and `done` are the model's fields, logs
4 and 6). -/
def Obligations.StepRunsTheDecodedInstruction : Prop :=
  ∀ (s : State) (w : PortWord) (i : Instr) (rest : List HostMove), s.shapeOk = true → s.busy = false →
    s.script = .present (pinsOf w) :: rest → decode s.mode w = .ok [i] →
    step s = match w with
      | .cmd _ => thenState (exec i { s with script := rest, done := false, busy := true })
          (fun t => { t with busy := false, done := true })
      | .ev _ => exec i { s with script := rest, done := false }

/-- 30_encoding.md R100: a presented event word sets INC_PEND when bit 0 is set and DEC_PEND when bit 1 is set, both in
one step when both are, nothing when neither is, whatever BUSY is, and changes no other cell. -/
def Obligations.EventWordLatchesExactlyItsBits : Prop :=
  ∀ (s : State) (p : Pins) (rest : List HostMove), s.shapeOk = true → s.script = .present p :: rest → p.rst = false →
    p.cmdValid = false →
    step s = .next { s with
      incPend := s.incPend || p.ev.getLsbD 0
      decPend := s.decPend || p.ev.getLsbD 1
      script := rest
      done := false }

/-- 70_reset_and_hazards.md R290, R291: a presentation of `rst` puts every control and data cell at its reset value,
whatever the block was doing and whatever command or event is presented with it; the configuration, INBUF and OUTBUF
stay; `done` is not pulsed. -/
def Obligations.ResetPutsEveryCellAtItsResetValue : Prop :=
  ∀ (s : State) (p : Pins) (rest : List HostMove), s.shapeOk = true → s.script = .present p :: rest → p.rst = true →
    ∃ t, step s = .next t ∧
      t.mode = .passThrough ∧ t.incPend = false ∧ t.decPend = false ∧ t.sign = false ∧ t.ind = 0 ∧ t.testOut = false ∧
      t.busy = false ∧ t.wc = 0 ∧ t.phase = 0 ∧ t.icoef.toInt = 32767 ∧ t.bitcur = 0 ∧
      t.h.length = s.cfg.nTaps ∧ t.dl.length = s.cfg.nTaps ∧ t.drbuf.length = s.cfg.delay + s.cfg.blockLen / 2 ∧
      (∀ k, memRead t.h k = 0) ∧ (∀ j, memRead t.dl j = 0) ∧ (∀ a, memRead t.drbuf a = 0) ∧
      t.cfg = s.cfg ∧ t.inbuf = s.inbuf ∧ t.outbuf = s.outbuf ∧ t.done = false

/-- The state after reset satisfies the invariant of 10_state.md R52, for every well-formed configuration and whatever
the host's memories hold; so does `State.reset`, whose configuration is the model's choice (log 2). -/
def Obligations.ResetStateMeetsTheInvariant : Prop :=
  State.reset.Inv ∧
  ∀ (c : Config) (inb outb : List Sample), c.wf = true → inb.length = c.blockLen → outb.length = c.blockLen →
    (State.resetOf c inb outb).Inv

/-- 30_encoding.md R98: while BUSY = 1 a presented command is not accepted; it stays presented, an event presented with
it is latched, and no other cell changes. -/
def Obligations.CommandIsHeldWhileBusy : Prop :=
  ∀ (s : State) (p : Pins) (rest : List HostMove), s.shapeOk = true → s.busy = true → s.script = .present p :: rest →
    p.rst = false → p.cmdValid = true →
    step s = .next { s with
      incPend := s.incPend || p.ev.getLsbD 0
      decPend := s.decPend || p.ev.getLsbD 1
      script := .present { p with ev := 0 } :: rest
      done := false }

/-- 30_encoding.md R98, R99: `done` is pulsed by the step that performs an accepted command and by no other, and BUSY is
0 after that step (the field `done` is the model's form of the strobe, log 6). -/
def Obligations.DoneIsPulsedExactlyAtCompletion : Prop :=
  ∀ s t : State, step s = .next t → (t.done = true ↔ s.commandNext = true) ∧ (s.commandNext = true → t.busy = false)

/-- 60_exceptions.md R267 (3), 20_memory.md R83: an event presented at the moment a command is accepted is ordered after
it and kept. For every accepted command: the first step is the command, the second the event, after which the flags are
those the command left or-ed with the event's bits. After a CTRL_TICK, MODE has moved by the flags that were set before
and the flags are exactly the events presented. That the held event is a step of its own is the model's choice, log 5. -/
def Obligations.EventPresentedWithACommandIsKept : Prop :=
  ∀ (s : State) (w : BitVec 8) (e : BitVec 2) (i : Instr) (rest : List HostMove), s.shapeOk = true → s.busy = false →
    e ≠ 0 → decodeCommand s.mode w = .ok i →
    s.script = .present { rst := false, cmdValid := true, cmd := w, ev := e } :: rest →
    ∃ v t u, exec i { s with script := rest, done := false, busy := true } = .next v ∧ step s = .next t ∧
      step t = .next u ∧
      t = { v with busy := false, done := true, script := .present (pinsOf (.ev e)) :: rest } ∧
      u = { v with
        busy := false
        done := false
        script := rest
        incPend := v.incPend || e.getLsbD 0
        decPend := v.decPend || e.getLsbD 1 } ∧
      (i ≠ .ctrlTick → u.incPend = (s.incPend || e.getLsbD 0) ∧ u.decPend = (s.decPend || e.getLsbD 1)) ∧
      (i = .ctrlTick → u.mode = modeTable s.mode s.incPend s.decPend ∧ t.incPend = false ∧ t.decPend = false ∧
        u.incPend = e.getLsbD 0 ∧ u.decPend = e.getLsbD 1)

/-- 30_encoding.md R111: the pseudo-move PROCESS.<m> is PROCESS where MODE is m and is refused where it is not. -/
def Obligations.ModeClaimIsCheckedByThePseudoMove : Prop :=
  ∀ (s : State) (m : Mode) (rest : List HostMove), s.shapeOk = true → s.busy = false → s.script = .processAs m :: rest →
    (s.mode = m → step s = step { s with script := presentInstr (processRow m) :: rest }) ∧
    (s.mode ≠ m → step s = .refused (.falseModeClaim m))

/-- 30_encoding.md R111: what the expansions of the pseudo-moves do. EV_BOTH is one step with the effect of EV_INC then
EV_DEC; STEP_UP and STEP_DOWN move MODE one forward and one back; BLOCK is LOAD, the PROCESS that MODE selects, READ;
GOTO_MODE leads from the mode the machine is in to the mode it names, with nothing pending and no cell but MODE and IND
changed (the script and `done` are the model's fields, logs 4 and 6). -/
def Obligations.PseudoMovesDoWhatTheyStandFor : Prop :=
  ∀ (s : State) (rest : List HostMove), s.shapeOk = true → s.busy = false →
    (s.script = expandPseudo .evBoth ++ rest →
      step s = .next { s with incPend := true, decPend := true, script := rest, done := false } ∧
      stepMany 2 { s with script := presentInstr .evInc :: presentInstr .evDec :: rest } = step s) ∧
    (s.script = expandPseudo .stepUp ++ rest → s.incPend = false → s.decPend = false →
      stepMany 2 s = .next { s with
        mode := modeTable s.mode true false, ind := modeCode (modeTable s.mode true false), script := rest,
        done := true }) ∧
    (s.script = expandPseudo .stepDown ++ rest → s.incPend = false → s.decPend = false →
      stepMany 2 s = .next { s with
        mode := modeTable s.mode false true, ind := modeCode (modeTable s.mode false true), script := rest,
        done := true }) ∧
    (∀ vs, s.script = expandPseudo (.block vs) ++ rest → vs.length = s.cfg.blockLen →
      ∃ t, exec (processRow s.mode) { s with inbuf := vs, script := .read :: rest, done := false, busy := true } =
          .next t ∧
        stepMany 3 s = .next { t with busy := false, done := false, script := rest }) ∧
    (∀ m, s.script = expandPseudo (.gotoMode s.mode m) ++ rest → s.incPend = false → s.decPend = false →
      ∃ t, stepMany (expandPseudo (.gotoMode s.mode m)).length s = .next t ∧
        t = { s with mode := m, ind := t.ind, script := rest, done := t.done } ∧
        (s.ind = modeCode s.mode → t.ind = modeCode m))

/-- 30_encoding.md R110: LOAD writes every word of INBUF and nothing else; READ changes nothing; each takes itself off
the script (model's field, log 4). A LOAD of another number of values is refused (the model's choice, log 16). -/
def Obligations.LoadWritesInbufAndReadChangesNothing : Prop :=
  ∀ (s : State) (rest : List HostMove), s.shapeOk = true → s.busy = false →
    (∀ vs, s.script = .load vs :: rest → vs.length = s.cfg.blockLen →
      step s = .next { s with inbuf := vs, script := rest, done := false }) ∧
    (∀ vs, s.script = .load vs :: rest → vs.length ≠ s.cfg.blockLen → step s = .refused (.loadLength vs.length)) ∧
    (s.script = .read :: rest → step s = .next { s with script := rest, done := false })

/-! ### Whole-machine rules -/

/-- 10_state.md R52 over every step: from every state that meets the invariant a step that answers a next state gives a
state that meets it. -/
def Obligations.EveryStepKeepsTheInvariant : Prop := ∀ s t : State, s.Inv → step s = .next t → t.Inv

/-- 60_exceptions.md R260, 70_reset_and_hazards.md R300: from every state that meets the invariant, reset, every event
word and every one of the three command words (alone or with events) have a next state, and so has READ (30_encoding.md
R110). With nothing presented the block is idle and holds every cell (60_exceptions.md R281). The empty script and
`done`, which falls, are the model's fields (logs 4 and 6). -/
def Obligations.EveryOperationCompletes : Prop :=
  ∀ s : State, s.Inv →
    (s.script = [] → step s = .next { s with done := false }) ∧
    (∀ rest, s.script = .read :: rest → ∃ t, step s = .next t) ∧
    (∀ p rest, s.script = .present p :: rest →
      p.rst = true ∨ p.cmdValid = false ∨ p.cmd = 0x01 ∨ p.cmd = 0x02 ∨ p.cmd = 0x03 → ∃ t, step s = .next t)

/-- What remains refused from a state that meets the invariant: a reserved command word (30_encoding.md R108), a false
mode claim (R111), a LOAD of the wrong length (the model's choice, log 16). Nothing faults (60_exceptions.md R260). -/
def Obligations.OnlyTheScriptCanBeRefused : Prop :=
  ∀ s : State, s.Inv →
    (∃ t, step s = .next t) ∨
    (∃ p rest, s.script = .present p :: rest ∧ p.cmdValid = true ∧ p.cmd ≠ 0x01 ∧ p.cmd ≠ 0x02 ∧ p.cmd ≠ 0x03 ∧
      step s = .refused (.reservedCommand p.cmd)) ∨
    (∃ m rest, s.script = .processAs m :: rest ∧ s.mode ≠ m ∧ step s = .refused (.falseModeClaim m)) ∨
    (∃ vs rest, s.script = .load vs :: rest ∧ vs.length ≠ s.cfg.blockLen ∧ step s = .refused (.loadLength vs.length))

/-- 10_state.md R54, for every operation: a cell changes only under an operation the rule names for it. -/
def Obligations.OnlyTheNamedOperationsWriteEachCell : Prop :=
  ∀ (i : Instr) (s t : State), exec i s = .next t →
    s.SameHostSide t ∧
    (i ≠ .init → i ≠ .processNotch → t.h = s.h ∧ t.dl = s.dl ∧ t.wc = s.wc) ∧
    (i ≠ .processNotch → t.drbuf = s.drbuf) ∧
    (i ≠ .processTone → i ≠ .processMod → t.phase = s.phase) ∧
    (i = .processTone → s.cfg.mode2 = .silence → t.phase = s.phase) ∧
    (i ≠ .processMod → t.sign = s.sign ∧ t.icoef = s.icoef ∧ t.bitcur = s.bitcur ∧ t.testOut = s.testOut) ∧
    (i ≠ .evInc → i ≠ .ctrlTick → t.incPend = s.incPend) ∧
    (i ≠ .evDec → i ≠ .ctrlTick → t.decPend = s.decPend) ∧
    (i ≠ .ctrlTick → t.mode = s.mode ∧ t.ind = s.ind) ∧
    (i.isProcess = false → t.outbuf = s.outbuf)

/-- 10_state.md R32, R33, R34, R46 over every step: MODE and IND change, and a pending flag falls, only at an accepted
CTRL_TICK or at reset. -/
def Obligations.OnlyTickOrResetMovesModeOrClearsAFlag : Prop :=
  ∀ s t : State, step s = .next t →
    t.mode ≠ s.mode ∨ t.ind ≠ s.ind ∨ (s.incPend = true ∧ t.incPend = false) ∨ (s.decPend = true ∧ t.decPend = false) →
    s.tickNext = true ∨ s.resetNext = true

/-- 10_state.md R44, 00_scope.md R10: no step changes a table or a constant. -/
def Obligations.NoStepChangesTheConfiguration : Prop := ∀ s t : State, step s = .next t → t.cfg = s.cfg

/-! ### Arithmetic -/

/-- 00_scope.md R18: the product is exact but for -1 times -1, which clamps; with the rule's examples. -/
def Obligations.ProductIsExactButForMinusOneSquared : Prop :=
  (∀ a b : Sample, (qmul32 a b).toInt = sat32 (2 * a.toInt * b.toInt)) ∧
  (∀ a b : Sample, (qmul32 a b).toInt = 2 * a.toInt * b.toInt ↔ ¬(a = 0x8000 ∧ b = 0x8000)) ∧
  qmul32 0x8000 0x8000 = 0x7FFFFFFF ∧ qmul32 0x4000 0x4000 = 0x20000000 ∧ qmul32 0x8000 0x7FFF = 0x80010000 ∧
  qmul32 0x7FFF 0x7FFF = 0x7FFE0002 ∧ qmul32 1 1 = 2

/-- 00_scope.md R19 with R17: the sum is clamped to the 32-bit range, so the order of several additions matters; with the
rule's examples. -/
def Obligations.AccumulateClampsAtEveryAddition : Prop :=
  (∀ p q : Acc, (add32 p q).toInt = max (-2147483648) (min 2147483647 (p.toInt + q.toInt))) ∧
  (∃ p q r : Acc, add32 (add32 p q) r ≠ add32 p (add32 q r)) ∧
  add32 0x7FFFFFFF 1 = 0x7FFFFFFF ∧ add32 0x80000000 (-1) = 0x80000000 ∧
  add32 0x40000000 0x40000000 = 0x7FFFFFFF ∧ add32 5 (-7) = -2

/-- 00_scope.md R20: to the nearest, a tie toward plus infinity; the clamp acts exactly from 0x7FFF8000 up and gives
32767; with examples of the rule. -/
def Obligations.NarrowingRoundsToNearestTiesUp : Prop :=
  (∀ acc : Acc, acc.toInt < 0x7FFF8000 →
    65536 * (narrow16 acc).toInt - 32768 ≤ acc.toInt ∧ acc.toInt < 65536 * (narrow16 acc).toInt + 32768) ∧
  (∀ acc : Acc, 0x7FFF8000 ≤ acc.toInt → (narrow16 acc).toInt = 32767) ∧
  narrow16 0x00007FFF = 0 ∧ narrow16 0x00008000 = 1 ∧ narrow16 0x00017FFF = 1 ∧ narrow16 0x00018000 = 2 ∧
  narrow16 (-1) = 0 ∧ narrow16 (-32768) = 0 ∧ narrow16 (-32769) = -1 ∧ narrow16 (-98304) = -1 ∧
  narrow16 0x20000000 = 0x2000 ∧ narrow16 0x7FFFFFFF = 0x7FFF ∧ narrow16 0x7FFF7FFF = 0x7FFF ∧
  narrow16 0x80000000 = 0x8000

/-- 00_scope.md R22: a Sample is widened exactly, never clamped, and narrowing gives it back. -/
def Obligations.WideningIsExactAndNarrowingUndoesIt : Prop :=
  ∀ h : Sample, (ext32 h).toInt = h.toInt * 65536 ∧ narrow16 (ext32 h) = h

/-- 00_scope.md R21: the difference is clamped to a Sample; with the rule's examples. -/
def Obligations.DifferenceClampsToASample : Prop :=
  (∀ a b : Sample, (sub16 a b).toInt = max (-32768) (min 32767 (a.toInt - b.toInt))) ∧
  sub16 0x7FFF (-1) = 0x7FFF ∧ sub16 0x8000 1 = 0x8000 ∧ sub16 0 0x8000 = 0x7FFF ∧ sub16 100 300 = -200

/-! ### Index arithmetic -/

/-- 20_memory.md R73: every index the rules compute lies inside its space, for every well-formed configuration. -/
def Obligations.EveryIndexLiesInsideItsSpace : Prop :=
  ∀ c : Config, c.wf = true →
    (∀ j, j < c.n → leftIndex j < c.blockLen ∧ rightIndex j < c.blockLen) ∧
    (∀ i, i < c.delay → i < c.drLen ∧ c.n + i < c.drLen) ∧
    (∀ i, i < c.n → dlyIndex i < c.drLen ∧ curIndex c i < c.drLen ∧ i < c.shapeA.length ∧ i < c.shapeB.length) ∧
    (∀ wc k, wc < c.nTaps → k < c.nTaps → ageIndex c.nTaps wc k < c.nTaps ∧ nextCursor wc c.nTaps < c.nTaps) ∧
    (∀ q, q < c.fullTurn → tableIndex c q < c.sine.length) ∧
    (∀ b, b < c.bitsLen → b < c.bits.length ∧ nextCursor b c.bitsLen < c.bitsLen)

/-! ### The Adaptive FIR Engine -/

/-- 40_adaptive_fir.md R131: the push overwrites the oldest sample, writes no other cell and steps the cursor; afterwards
XL(0) is the new sample and every other sample is one older. -/
def Obligations.PushMakesTheNewSampleAgeZero : Prop :=
  ∀ (c : Config) (f : FirCells) (x : Sample), f.Fits c →
    memRead f.dl f.wc = firXl c f (c.nTaps - 1) ∧ (firPush c x f).Fits c ∧ (firPush c x f).h = f.h ∧
    (firPush c x f).wc = (if f.wc = c.nTaps - 1 then 0 else f.wc + 1) ∧
    memRead (firPush c x f).dl f.wc = x ∧ (∀ j, j ≠ f.wc → memRead (firPush c x f).dl j = memRead f.dl j) ∧
    firXl c (firPush c x f) 0 = x ∧
    ∀ k, k + 1 < c.nTaps → firXl c (firPush c x f) (k + 1) = firXl c f k

/-- 10_state.md R39: after any number of pushes the delay line holds the most recent inputs by age, and behind them the
samples it held before. -/
def Obligations.DelayLineHoldsTheMostRecentSamples : Prop :=
  ∀ (c : Config) (f : FirCells) (xs : List Sample), f.Fits c →
    ∀ k, k < c.nTaps → firXl c (xs.foldl (fun g x => firPush c x g) f) k =
      if k < xs.length then memRead xs.reverse k else firXl c f (k - xs.length)

/-- 40_adaptive_fir.md R127: the accumulator is the sum, in ascending tap order and clamped after every addition, of each
tap times the sample whose cell lies its age plus one behind the write cursor; the prediction is it narrowed. -/
def Obligations.PredictionIsTheClampedConvolution : Prop :=
  ∀ (c : Config) (f : FirCells), f.Fits c →
    firPredict c f = narrow16 ((List.range c.nTaps).foldl (fun acc k =>
      add32 acc (qmul32 (memRead f.h k) (memRead f.dl ((f.wc + c.nTaps - 1 - k) % c.nTaps)))) 0)

/-- 40_adaptive_fir.md R130: the update gives every tap its old value plus EMU times the sample it is paired with, each
rounded and clamped once, the delay line and the cursor unchanged; a zero EMU or a zero sample leaves the tap. -/
def Obligations.UpdateMovesEveryTapByItsOwnProduct : Prop :=
  ∀ (c : Config) (emu : Sample) (f : FirCells), f.Fits c →
    (firUpdate c emu f).dl = f.dl ∧ (firUpdate c emu f).wc = f.wc ∧ (firUpdate c emu f).h.length = c.nTaps ∧
    ∀ k, k < c.nTaps →
      memRead (firUpdate c emu f).h k =
        narrow16 (add32 (ext32 (memRead f.h k)) (qmul32 emu (firXl c f k))) ∧
      (emu = 0 ∨ firXl c f k = 0 → memRead (firUpdate c emu f).h k = memRead f.h k)

/-- 40_adaptive_fir.md R129: EMU is the product of MU and the error rounded to a Sample once, a tie up, clamped only for
-1 times -1; it is 0 exactly when the integer product lies in -16384..16383, and 1 at the tie. -/
def Obligations.ScaledErrorIsTheProductRoundedOnce : Prop :=
  ∀ (c : Config) (e : Sample),
    firScale c e = narrow16 (qmul32 c.mu e) ∧
    (firScale c e).toInt = min 32767 ((2 * (c.mu.toInt * e.toInt) + 32768) / 65536) ∧
    (firScale c e = 0 ↔ -16384 ≤ c.mu.toInt * e.toInt ∧ c.mu.toInt * e.toInt ≤ 16383) ∧
    (c.mu.toInt * e.toInt = 16384 → firScale c e = 1) ∧
    (c.mu = 0x8000 → e = 0x8000 → firScale c e = 0x7FFF)

/-- 40_adaptive_fir.md R132, R128: one sample of the engine. The error is the clamped difference of d and a prediction
made from the taps and the line BEFORE the push; every tap moves by the scaled error times the sample of its age before
the push; x is pushed last, over the oldest sample; nothing else of the line moves. With the rules' examples. -/
def Obligations.StepOfTheEnginePredictsBeforeItPushes : Prop :=
  (∀ (c : Config) (f : FirCells) (x d : Sample), f.Fits c →
    let e := sub16 d (convolve c f.h (ageSample c f))
    let r := lmsStep c x d f
    r.1 = e ∧ r.2.Fits c ∧
    (∀ k, k < c.nTaps → memRead r.2.h k =
      narrow16 (add32 (ext32 (memRead f.h k)) (qmul32 (narrow16 (qmul32 c.mu e)) (ageSample c f k)))) ∧
    memRead r.2.dl f.wc = x ∧ (∀ j, j ≠ f.wc → memRead r.2.dl j = memRead f.dl j) ∧
    r.2.wc = (if f.wc = c.nTaps - 1 then 0 else f.wc + 1)) ∧
  (∀ d y : Sample, firErr d y = sub16 d y ∧ firErr d d = 0) ∧
  firErr 16384 (-256) = 16640 ∧ firErr 32767 (-32768) = 32767 ∧ firErr (-32768) 32767 = -32768 ∧
  lmsStep Config.testcfg (-16384) 16384 { h := [-1024, 0, 0], dl := [8192, 0, 16384], wc := 1 } =
    (16640, { h := [16, 2080, 0], dl := [8192, -16384, 16384], wc := 2 })

/-- 40_adaptive_fir.md R134: the prediction of a step uses the inputs of the steps before it by age and, behind them, the
line it started from (0 after INIT), with the taps as they stand before the step; its own input, and what comes after,
take no part. -/
def Obligations.PredictionUsesOnlyEarlierInputs : Prop :=
  ∀ (c : Config) (f : FirCells) (ps qs : List (Sample × Sample)) (x d : Sample), f.Fits c →
    memRead (lmsFeed c (ps ++ (x, d) :: qs) f).1 ps.length =
      sub16 d (convolve c (lmsFeed c ps f).2.h fun k =>
        if k < ps.length then memRead (ps.map Prod.fst) (ps.length - 1 - k) else ageSample c f (k - ps.length)) ∧
    (f.LineZero c → ∀ k, ageSample c f k = 0)

/-- 40_adaptive_fir.md R135: with the delay line all zero the prediction is 0, and with zero inputs the errors are the
desired samples and no tap changes, for ever; from any line the same holds once N_TAPS zeros were pushed. -/
def Obligations.ZeroInputLeavesTheDesiredSignal : Prop :=
  (∀ (c : Config) (f : FirCells) (ds : List Sample), f.Fits c → f.LineZero c →
    firPredict c f = 0 ∧
    (lmsFeed c (ds.map fun d => ((0 : Sample), d)) f).1 = ds ∧
    (lmsFeed c (ds.map fun d => ((0 : Sample), d)) f).2.h = f.h ∧
    (lmsFeed c (ds.map fun d => ((0 : Sample), d)) f).2.LineZero c) ∧
  (∀ (c : Config) (f : FirCells) (ds : List Sample), f.Fits c → c.nTaps ≤ ds.length →
    (lmsFeed c (ds.map fun d => ((0 : Sample), d)) f).2.LineZero c)

/-- 10_state.md R39, 44_mode_control.md R212 (the value of WC cannot be seen): two engines with the same taps and the
same samples by age, whatever their cursors and physical cells, give the same errors for every input and stay so. -/
def Obligations.EngineDependsOnAgesNotOnTheCursor : Prop :=
  ∀ (c : Config) (f g : FirCells) (ps : List (Sample × Sample)), f.Fits c → g.Fits c → f.h = g.h →
    (∀ k, k < c.nTaps → firXl c f k = firXl c g k) →
    (lmsFeed c ps f).1 = (lmsFeed c ps g).1 ∧ (lmsFeed c ps f).2.h = (lmsFeed c ps g).2.h ∧
    ∀ k, k < c.nTaps → firXl c (lmsFeed c ps f).2 k = firXl c (lmsFeed c ps g).2 k

/-! ### The Delay/Reference Buffer Manager -/

/-- 41_delay_buffer.md R152: the shift puts DRBUF[N+i] in cell i for every i below DELAY as it stood before the shift,
also when the ranges overlap, and changes no other cell. -/
def Obligations.ShiftMovesTheLookBackForward : Prop :=
  ∀ (c : Config) (dr : List Sample), c.wf = true → dr.length = c.drLen →
    (dlyShift c dr).length = c.drLen ∧
    ∀ a, memRead (dlyShift c dr) a = if a < c.delay then memRead dr (c.n + a) else memRead dr a

/-- 41_delay_buffer.md R153: the load puts the block's sample i in cell DELAY + i and changes no other cell. -/
def Obligations.LoadFillsTheCurrentWindow : Prop :=
  ∀ (c : Config) (s dr : List Sample), dr.length = c.drLen →
    (dlyLoad c s dr).length = c.drLen ∧
    ∀ a, memRead (dlyLoad c s dr) a = if c.delay ≤ a ∧ a < c.drLen then memRead s (a - c.delay) else memRead dr a

/-- 41_delay_buffer.md R155: after the manager was given any sequence of blocks since reset, the last being block b, the
CUR window holds the samples of times bN to bN + N - 1 and the DLY window those DELAY times earlier, 0 before the first,
for every DELAY. -/
def Obligations.SlidingWindowHoldsTheDelayedSamples : Prop :=
  ∀ (c : Config) (before : List (List Sample)) (last : List Sample), c.wf = true →
    (∀ b ∈ before, b.length = c.n) → last.length = c.n →
    ∀ i, i < c.n →
      memRead (curWindow c (drbufAfter c (before ++ [last]))) i =
        historyAt (before ++ [last]) ((before.length * c.n + i : Nat) : Int) ∧
      memRead (dlyWindow c (drbufAfter c (before ++ [last]))) i =
        historyAt (before ++ [last]) ((before.length * c.n + i : Nat) - (c.delay : Int))

/-! ### The Carrier/Phase Generator -/

/-- 42_carrier.md R168: after K advances the phase is (p + K * PHASE_INC) mod 2^PHASE_W, exactly, for all K; it wraps and
never saturates. -/
def Obligations.PhaseAfterKAdvancesIsExact : Prop :=
  ∀ (c : Config) (p k : Nat), p < c.fullTurn → (phaseAdv c)^[k] p = phaseAfter c p k

/-- 42_carrier.md R172: the phase repeats exactly every 2^PHASE_W / gcd(2^PHASE_W, PHASE_INC) samples and no sooner, and
with it both carriers repeat. -/
def Obligations.PhaseRepeatsWithItsExactPeriod : Prop :=
  ∀ (c : Config) (p k : Nat), p < c.fullTurn →
    ((phaseAdv c)^[k] p = p ↔ c.fullTurn / Nat.gcd c.fullTurn (phaseInc c) ∣ k) ∧
    (c.fullTurn / Nat.gcd c.fullTurn (phaseInc c) ∣ k →
      carrierTick c ((phaseAdv c)^[k] p) = carrierTick c p)

/-- 42_carrier.md R167, R173: PHASE_INC is a PHASE_W-bit number. Under MUL_FIRST it is the quotient q of
2^PHASE_W * TONE_FREQ by SAMPLE_RATE, truncated once, modulo 2^PHASE_W; under DIV_FIRST the truncated quotient q of
2^PHASE_W by SAMPLE_RATE times TONE_FREQ, modulo 2^PHASE_W. Each q is pinned by its two inequalities; the rule's
examples follow. Under MUL_FIRST a frequency and the same plus SAMPLE_RATE give the same increment. -/
def Obligations.IncrementIsTheTruncatedRatioAndAliases : Prop :=
  (∀ c : Config, c.wf = true →
    phaseInc c < 2 ^ c.phaseW ∧
    (c.incOrder = .mulFirst → ∀ q, q * c.sampleRate ≤ 2 ^ c.phaseW * c.toneFreq →
      2 ^ c.phaseW * c.toneFreq < (q + 1) * c.sampleRate → phaseInc c = q % 2 ^ c.phaseW) ∧
    (c.incOrder = .divFirst → ∀ q, q * c.sampleRate ≤ 2 ^ c.phaseW → 2 ^ c.phaseW < (q + 1) * c.sampleRate →
      phaseInc c = q * c.toneFreq % 2 ^ c.phaseW) ∧
    (c.incOrder = .mulFirst → phaseInc { c with toneFreq := c.toneFreq + c.sampleRate } = phaseInc c)) ∧
  ∀ c : Config, c.phaseW = 16 →
    (c.sampleRate = 8000 → c.toneFreq = 1300 → c.incOrder = .mulFirst → phaseInc c = 10649) ∧
    (c.sampleRate = 8000 → c.toneFreq = 1300 → c.incOrder = .divFirst → phaseInc c = 10400) ∧
    (c.sampleRate = 48000 → c.toneFreq = 1000 → c.incOrder = .mulFirst → phaseInc c = 1365) ∧
    (c.sampleRate = 48000 → c.toneFreq = 1000 → c.incOrder = .divFirst → phaseInc c = 1000)

/-- 30_encoding.md R103, 42_carrier.md R169, R170: the sine of a phase value is the table entry of its SINE_BITS most
significant bits, rounded down, so equal top bits give equal entries; the cosine is the sine a quarter turn ahead,
wrapped in the last quarter. -/
def Obligations.CarriersAreTableEntriesOfTheTopBits : Prop :=
  ∀ (c : Config), c.wf = true →
    (∀ j r, j < 2 ^ c.sineBits → r < 2 ^ (c.phaseW - c.sineBits) →
      sinAt c (j * 2 ^ (c.phaseW - c.sineBits) + r) = memRead c.sine j) ∧
    (∀ q, q < c.fullTurn → cosAt c q =
      if q < 3 * 2 ^ (c.phaseW - 2) then sinAt c (q + 2 ^ (c.phaseW - 2)) else sinAt c (q - 3 * 2 ^ (c.phaseW - 2)))

/-! ### The Mode State Machine and INIT -/

/-- 44_mode_control.md R211, R216: the word 0x03, a control tick, consumes both flags, steps MODE by the transition table, refreshes IND
with the new MODE when a flag was consumed, and writes nothing else. -/
def Obligations.TickStepsTheModeByTheTable : Prop :=
  encode .ctrlTick = .cmd 0x03 ∧
  ∀ s : State, exec .ctrlTick s = .next { s with
    incPend := false
    decPend := false
    mode := modeTable s.mode s.incPend s.decPend
    ind := if s.incPend || s.decPend then modeCode (modeTable s.mode s.incPend s.decPend) else s.ind }

/-- 44_mode_control.md R214, R215: each event, one bit of the event word, sets its own flag, set already or not, and writes nothing else. -/
def Obligations.EventsSetTheirOwnFlagOnly : Prop :=
  encode .evInc = .ev 0b01 ∧ encode .evDec = .ev 0b10 ∧
  ∀ s : State, exec .evInc s = .next { s with incPend := true } ∧ exec .evDec s = .next { s with decPend := true }

/-- 44_mode_control.md R217: when no event comes on a line whose flag is still set, MODE with its pending steps is the
start plus the increments minus the decrements modulo 4, in any interleaving; with nothing pending it is MODE. -/
def Obligations.EventsComposeAdditivelyModuloFour : Prop :=
  ∀ (is : List Instr) (s : State), s.incPend = false → s.decPend = false → edgesSpaced is false false = true →
    ∃ t, execAll is s = .next t ∧
      ((modeNumber t.mode : Int) + t.incPend.toNat - t.decPend.toNat) % 4 =
        ((modeNumber s.mode : Int) + is.count .evInc - is.count .evDec) % 4 ∧
      (t.incPend = false → t.decPend = false →
        (modeNumber t.mode : Int) = ((modeNumber s.mode : Int) + is.count .evInc - is.count .evDec) % 4)

/-- 44_mode_control.md R218, R219: edges of one line before a tick merge into one step, on either line, further ticks do
nothing, an increment and a decrement pending together cancel, and any INIT and PROCESS between the edges and the tick
leave the flags, MODE and IND untouched. -/
def Obligations.MergedEdgesMakeOneStep : Prop :=
  (∀ (s : State) (n k : Nat), s.incPend = false → s.decPend = false →
    execAll (List.replicate (n + 1) .evInc ++ List.replicate (k + 1) .ctrlTick) s =
      .next { s with mode := modeTable s.mode true false, ind := modeCode (modeTable s.mode true false) } ∧
    execAll (List.replicate (n + 1) .evDec ++ List.replicate (k + 1) .ctrlTick) s =
      .next { s with mode := modeTable s.mode false true, ind := modeCode (modeTable s.mode false true) } ∧
    execAll (List.replicate (n + 1) .evInc ++ List.replicate (n + 1) .evDec ++ List.replicate (k + 1) .ctrlTick) s =
      .next { s with ind := modeCode s.mode }) ∧
  (∀ (is : List Instr) (s t : State), is.all Instr.ignoresEvents = true → execAll is s = .next t →
    t.incPend = s.incPend ∧ t.decPend = s.decPend ∧ t.mode = s.mode ∧ t.ind = s.ind)

/-- 44_mode_control.md R212: INIT zeroes every tap, every delay-line cell and the cursor, in every mode, and writes
nothing else: a pending event, DRBUF, PHASE and the modulator's cells survive it. -/
def Obligations.InitZeroesTheEngineAndNothingElse : Prop :=
  encode .init = .cmd 0x01 ∧
  ∀ s : State, s.h.length = s.cfg.nTaps → s.dl.length = s.cfg.nTaps →
    ∃ t, exec .init s = .next t ∧ t = { s with h := t.h, dl := t.dl, wc := 0 } ∧
      t.h.length = s.cfg.nTaps ∧ t.dl.length = s.cfg.nTaps ∧ (∀ k, memRead t.h k = 0) ∧ (∀ j, memRead t.dl j = 0)

/-- 44_mode_control.md R213: INIT directly after reset changes no cell, for every configuration. -/
def Obligations.InitAfterResetChangesNothing : Prop :=
  ∀ (c : Config) (inb outb : List Sample),
    exec .init (State.resetOf c inb outb) = .next (State.resetOf c inb outb)

/-! ### The four rows of PROCESS -/

/-- 30_encoding.md R111: a PROCESS row is refused as a false claim when MODE is not its mode. -/
def Obligations.ProcessRowOfAnotherModeIsRefused : Prop :=
  ∀ (i : Instr) (m : Mode) (s : State), i.selector = some m → s.mode ≠ m → exec i s = .refused (.falseModeClaim m)

/-- 45_block_entry.md R240: in mode 0 every word of OUTBUF becomes the word of INBUF at the same index, bit for bit, and
no other cell changes. -/
def Obligations.PassThroughCopiesTheBlock : Prop :=
  encode .processPass = .cmd 0x02 ∧
  ∀ s : State, s.shapeOk = true → s.mode = .passThrough →
    ∃ t, exec .processPass s = .next t ∧ t = { s with outbuf := t.outbuf } ∧ t.outbuf.length = s.cfg.blockLen ∧
      ∀ a, memRead t.outbuf a = memRead s.inbuf a

/-- 45_block_entry.md R241: in mode 1 DRBUF is shifted and loaded with the left channel; the engine is fed, in order, the
pairs (x, d) of the sample DELAY earlier and the current left sample; its errors go to both channels of OUTBUF and its
cells to H, DL and WC; no other cell changes. -/
def Obligations.NotchEmitsTheErrorOfTheLeftChannel : Prop :=
  encode .processNotch = .cmd 0x02 ∧
  ∀ s : State, s.shapeOk = true → s.mode = .adaptiveNotch →
    ∃ t, exec .processNotch s = .next t ∧
      t = { s with drbuf := t.drbuf, h := t.h, dl := t.dl, wc := t.wc, outbuf := t.outbuf } ∧
      t.drbuf.length = s.cfg.drLen ∧
      (∀ a, a < s.cfg.drLen → memRead t.drbuf a =
        if a < s.cfg.delay then memRead s.drbuf (s.cfg.n + a) else memRead s.inbuf (2 * (a - s.cfg.delay))) ∧
      let pairs := (List.range s.cfg.n).map fun i =>
        (if i < s.cfg.delay then memRead s.drbuf (s.cfg.n + i) else memRead s.inbuf (2 * (i - s.cfg.delay)),
          memRead s.inbuf (2 * i))
      let r := lmsFeed s.cfg pairs s.firCells
      t.firCells = r.2 ∧ t.outbuf.length = s.cfg.blockLen ∧
      ∀ j, j < s.cfg.n → memRead t.outbuf (2 * j) = memRead r.1 j ∧ memRead t.outbuf (2 * j + 1) = memRead r.1 j

/-- 45_block_entry.md R242: in mode 2 with MODE2_BEHAVIOUR = TONE, sample j of both channels is the sine at PHASE + (j+1)
increments, PHASE ends N increments on, and no other cell changes. -/
def Obligations.ToneEmitsTheSineCarrier : Prop :=
  encode .processTone = .cmd 0x02 ∧
  ∀ s : State, s.shapeOk = true → s.mode = .tone → s.cfg.mode2 = .tone →
    ∃ t, exec .processTone s = .next t ∧
      t = { s with phase := phaseAfter s.cfg s.phase s.cfg.n, outbuf := t.outbuf } ∧ t.outbuf.length = s.cfg.blockLen ∧
      ∀ j, j < s.cfg.n → memRead t.outbuf (2 * j) = sinAt s.cfg (phaseAfter s.cfg s.phase (j + 1)) ∧
        memRead t.outbuf (2 * j + 1) = sinAt s.cfg (phaseAfter s.cfg s.phase (j + 1))

/-- 45_block_entry.md R244: in mode 2 with MODE2_BEHAVIOUR = SILENCE every word of OUTBUF is 0 and no other cell
changes. -/
def Obligations.SilenceWritesZerosOnly : Prop :=
  encode .processTone = .cmd 0x02 ∧
  ∀ s : State, s.shapeOk = true → s.mode = .tone → s.cfg.mode2 = .silence →
    ∃ t, exec .processTone s = .next t ∧ t = { s with outbuf := t.outbuf } ∧ t.outbuf.length = s.cfg.blockLen ∧
      ∀ a, memRead t.outbuf a = 0

/-- 45_block_entry.md R243, 43_modulator.md R189 to R192: in mode 3 one block is one symbol. The bit under the cursor
goes to TEST_OUT and the cursor steps; SIGN toggles exactly on bit 0; the coefficient of sample j is held on bit 1 and
read from the table SIGN selected on bit 0; both channels carry the coefficient times the cosine plus Q_COEF times the
sine at PHASE + (j+1) increments, narrowed; no other cell changes. -/
def Obligations.ModulatorEmitsOneSymbol : Prop :=
  encode .processMod = .cmd 0x02 ∧
  ∀ s : State, s.shapeOk = true → s.mode = .modulate →
    ∃ t, exec .processMod s = .next t ∧
      t = { s with
        bitcur := (s.bitcur + 1) % s.cfg.bitsLen
        testOut := s.nextBit
        sign := if s.nextBit then s.sign else !s.sign
        icoef := s.symbolCoef (s.cfg.n - 1)
        phase := phaseAfter s.cfg s.phase s.cfg.n
        outbuf := t.outbuf } ∧
      t.outbuf.length = s.cfg.blockLen ∧
      ∀ j, j < s.cfg.n →
        let q := phaseAfter s.cfg s.phase (j + 1)
        let y := narrow16 (add32 (qmul32 (s.symbolCoef j) (cosAt s.cfg q)) (qmul32 s.cfg.qCoef (sinAt s.cfg q)))
        memRead t.outbuf (2 * j) = y ∧ memRead t.outbuf (2 * j + 1) = y

/-- 45_block_entry.md R241: the right input channel does not influence mode 1. Two blocks with the same left samples give
the same output and the same state. -/
def Obligations.NotchIgnoresTheRightChannel : Prop :=
  ∀ (s : State) (b : List Sample), s.shapeOk = true → s.mode = .adaptiveNotch →
    (∀ j, j < s.cfg.n → memRead b (2 * j) = memRead s.inbuf (2 * j)) →
    ∃ t, exec .processNotch s = .next t ∧ exec .processNotch { s with inbuf := b } = .next { t with inbuf := b }

/-- 45_block_entry.md R242, R243, R244: the input block does not influence modes 2 and 3. -/
def Obligations.ToneAndModulatorIgnoreTheInput : Prop :=
  ∀ (s : State) (b : List Sample) (i : Instr), i = .processTone ∨ i = .processMod → i.selectedIn s.mode = true →
    ∃ t, exec i s = .next t ∧ exec i { s with inbuf := b } = .next { t with inbuf := b }

/-- 45_block_entry.md R241, corner: with H = 0 and MU = 0 the notch copies the left channel to both outputs, and the taps
stay 0, so it does so for ever. -/
def Obligations.NotchWithZeroStepCopiesTheLeftChannel : Prop :=
  ∀ s : State, s.shapeOk = true → s.mode = .adaptiveNotch → s.cfg.mu = 0 → (∀ k, memRead s.h k = 0) →
    ∃ t, exec .processNotch s = .next t ∧ (∀ k, memRead t.h k = 0) ∧
      ∀ j, j < s.cfg.n → memRead t.outbuf (2 * j) = memRead s.inbuf (2 * j) ∧
        memRead t.outbuf (2 * j + 1) = memRead s.inbuf (2 * j)

/-- 45_block_entry.md R241, corner: in the first mode-1 block after reset the error is the input for every sample up to
and including the DELAY-th. -/
def Obligations.FirstNotchBlockStartsAsACopy : Prop :=
  ∀ s : State, s.shapeOk = true → s.mode = .adaptiveNotch → (∀ k, memRead s.h k = 0) → (∀ k, memRead s.dl k = 0) →
    (∀ a, memRead s.drbuf a = 0) →
    ∃ t, exec .processNotch s = .next t ∧
      ∀ j, j < s.cfg.n → j ≤ s.cfg.delay →
        memRead t.outbuf (2 * j) = memRead s.inbuf (2 * j) ∧ memRead t.outbuf (2 * j + 1) = memRead s.inbuf (2 * j)

/-! ### Consequences over steps -/

/-- 43_modulator.md R195: when the tables end at the ends their names say, every step keeps the agreement of SIGN with the
end at which ICOEF rests; reset establishes it. -/
def Obligations.SignAndCoefficientStayInAgreement : Prop :=
  (∀ (c : Config) (inb outb : List Sample), (State.resetOf c inb outb).SignAgrees) ∧
  ∀ s t : State, s.cfg.TablesEndRight → s.SignAgrees → step s = .next t → t.SignAgrees

/-- 43_modulator.md R194: with BITS = [0, 0, 1, 1], BITCUR = 0 and SIGN = 0, four symbols leave SIGN 1, 0, 0, 0 and
TEST_OUT 0, 0, 1, 1, take their coefficients from SHAPE_A, from SHAPE_B and then hold the last, and come back to a state
of the same kind, so the pattern repeats. -/
def Obligations.SignTogglesOnTheTwoZeroBitsOfTheCycle : Prop :=
  ∀ s : State, s.shapeOk = true → s.mode = .modulate → s.cfg.bits = [false, false, true, true] → s.bitcur = 0 →
    s.sign = false →
    ∃ t₁ t₂ t₃ t₄, exec .processMod s = .next t₁ ∧ exec .processMod t₁ = .next t₂ ∧ exec .processMod t₂ = .next t₃ ∧
      exec .processMod t₃ = .next t₄ ∧
      [t₁.sign, t₂.sign, t₃.sign, t₄.sign] = [true, false, false, false] ∧
      [t₁.testOut, t₂.testOut, t₃.testOut, t₄.testOut] = [false, false, true, true] ∧
      (∀ j, s.symbolCoef j = memRead s.cfg.shapeA j ∧ t₁.symbolCoef j = memRead s.cfg.shapeB j ∧
        t₂.symbolCoef j = t₂.icoef ∧ t₃.symbolCoef j = t₂.icoef) ∧
      t₄.shapeOk = true ∧ t₄.mode = .modulate ∧ t₄.cfg = s.cfg ∧ t₄.bitcur = 0 ∧ t₄.sign = false
end

