-- ==== Sys2Proof/Laws/Arith.lean ====
section
/-! SUPPORT. The value of every arithmetic primitive as an integer: one lemma per primitive, which later proofs cite
instead of unfolding it. -/

namespace Sys2Proof.Machine

theorem sat16_range (v : Int) : -32768 ≤ sat16 v ∧ sat16 v ≤ 32767 := by
  unfold sat16; split_ifs <;> omega

theorem sat32_range (v : Int) : -2147483648 ≤ sat32 v ∧ sat32 v ≤ 2147483647 := by
  unfold sat32; split_ifs <;> omega

theorem sat16_of_range (v : Int) (h₁ : -32768 ≤ v) (h₂ : v ≤ 32767) : sat16 v = v := by
  unfold sat16; split_ifs <;> omega

theorem sat32_of_range (v : Int) (h₁ : -2147483648 ≤ v) (h₂ : v ≤ 2147483647) : sat32 v = v := by
  unfold sat32; split_ifs <;> omega

theorem sample_range (a : Sample) : -32768 ≤ a.toInt ∧ a.toInt ≤ 32767 := by
  have h₁ := BitVec.le_toInt a
  have h₂ := BitVec.toInt_lt (x := a)
  norm_num at h₁ h₂
  omega

theorem acc_range (a : Acc) : -2147483648 ≤ a.toInt ∧ a.toInt ≤ 2147483647 := by
  have h₁ := BitVec.le_toInt a
  have h₂ := BitVec.toInt_lt (x := a)
  norm_num at h₁ h₂
  omega

theorem toInt_ofInt16 (v : Int) (h₁ : -32768 ≤ v) (h₂ : v ≤ 32767) : (BitVec.ofInt 16 v).toInt = v := by
  rw [BitVec.toInt_ofInt]
  simp only [Int.bmod]
  norm_num
  split_ifs <;> omega

theorem toInt_ofInt32 (v : Int) (h₁ : -2147483648 ≤ v) (h₂ : v ≤ 2147483647) : (BitVec.ofInt 32 v).toInt = v := by
  rw [BitVec.toInt_ofInt]
  simp only [Int.bmod]
  norm_num
  split_ifs <;> omega

theorem qmul32_toInt (a b : Sample) : (qmul32 a b).toInt = sat32 (2 * a.toInt * b.toInt) :=
  toInt_ofInt32 _ (sat32_range _).1 (sat32_range _).2

theorem add32_toInt (p q : Acc) : (add32 p q).toInt = sat32 (p.toInt + q.toInt) :=
  toInt_ofInt32 _ (sat32_range _).1 (sat32_range _).2

theorem narrow16_toInt (acc : Acc) : (narrow16 acc).toInt = sat16 ((acc.toInt + 32768) / 65536) :=
  toInt_ofInt16 _ (sat16_range _).1 (sat16_range _).2

theorem sub16_toInt (a b : Sample) : (sub16 a b).toInt = sat16 (a.toInt - b.toInt) :=
  toInt_ofInt16 _ (sat16_range _).1 (sat16_range _).2

theorem ext32_toInt (h : Sample) : (ext32 h).toInt = h.toInt * 65536 := by
  have := sample_range h
  exact toInt_ofInt32 _ (by omega) (by omega)

/-! A zero factor, and what follows for the engine's terms. -/

@[simp] theorem qmul32_zero_left (b : Sample) : qmul32 0#16 b = 0#32 := by
  apply BitVec.eq_of_toInt_eq
  simp [qmul32_toInt, sat32]

@[simp] theorem qmul32_zero_right (a : Sample) : qmul32 a 0#16 = 0#32 := by
  apply BitVec.eq_of_toInt_eq
  simp [qmul32_toInt, sat32]

@[simp] theorem add32_zero_right (p : Acc) : add32 p 0#32 = p := by
  apply BitVec.eq_of_toInt_eq
  have := acc_range p
  simpa [add32_toInt] using sat32_of_range _ this.1 this.2

@[simp] theorem sub16_zero_right (d : Sample) : sub16 d 0#16 = d := by
  apply BitVec.eq_of_toInt_eq
  have := sample_range d
  simpa [sub16_toInt] using sat16_of_range _ this.1 this.2

@[simp] theorem narrow16_zero : narrow16 0#32 = 0#16 := by decide

end Sys2Proof.Machine
end

