-- ==== Sys2Proof/Laws/Ops.lean ====
section
/-! SUPPORT. The laws of memory reads and writes, of the ascending loops, and of the shared control operations. -/

namespace Sys2Proof.Machine

/-! Reads and writes of one word -/

@[simp] theorem memWrite_length (sp : List Sample) (a : Nat) (v : Sample) : (memWrite sp a v).length = sp.length := by
  simp [memWrite]

/-- A read after a write: the written word at its index, the old word elsewhere. -/
theorem memRead_memWrite (sp : List Sample) (a b : Nat) (v : Sample) (h : a < sp.length) :
    memRead (memWrite sp a v) b = if b = a then v else memRead sp b := by
  unfold memRead memWrite
  by_cases hb : b = a
  · subst hb; simp [List.getD, h]
  · simp [List.getD, List.getElem?_set_ne (Ne.symm hb), hb]

theorem memRead_memWrite_same (sp : List Sample) (a : Nat) (v : Sample) (h : a < sp.length) :
    memRead (memWrite sp a v) a = v := by
  rw [memRead_memWrite sp a a v h, if_pos rfl]

/-- A write leaves every other index alone, whatever the index written. -/
theorem memRead_memWrite_other (sp : List Sample) (a b : Nat) (v : Sample) (hb : b ≠ a) :
    memRead (memWrite sp a v) b = memRead sp b := by
  simp [memRead, memWrite, List.getD, List.getElem?_set_ne (Ne.symm hb)]

theorem memRead_past_end (sp : List Sample) (a : Nat) (h : sp.length ≤ a) : memRead sp a = 0 := by
  simp [memRead, List.getD, List.getElem?_eq_none h]

@[simp] theorem memRead_replicate_zero (n a : Nat) : memRead (List.replicate n 0#16) a = 0#16 := by
  unfold memRead
  rcases Nat.lt_or_ge a n with h | h
  · simp [List.getD, h]
  · simp [List.getD, h]

/-- Two spaces of one length that read the same are equal: the form is canonical. -/
theorem space_ext (sp tp : List Sample) (hl : sp.length = tp.length)
    (hr : ∀ a, a < sp.length → memRead sp a = memRead tp a) : sp = tp := by
  apply List.ext_getElem hl
  intro i h₁ h₂
  have h := hr i h₁
  simpa [memRead, List.getD, List.getElem?_eq_getElem h₁, List.getElem?_eq_getElem h₂] using h

/-- A write keeps a space's canonical form. -/
theorem spaceWf_memWrite (len : Nat) (sp : List Sample) (a : Nat) (v : Sample) (h : spaceWf len sp = true) :
    spaceWf len (memWrite sp a v) = true := by
  simpa [spaceWf] using h

/-! Loops -/

@[simp] theorem loopUp_zero {α : Type} (body : Nat → α → α) (a : α) : loopUp 0 body a = a := rfl

theorem loopUp_succ {α : Type} (n : Nat) (body : Nat → α → α) (a : α) :
    loopUp (n + 1) body a = body n (loopUp n body a) := rfl

/-- The loop rule: what holds before the first iteration and is carried by every iteration holds after the last. -/
theorem loopUp_rule {α : Type} (P : Nat → α → Prop) (n : Nat) (body : Nat → α → α) (a : α) (h0 : P 0 a)
    (hs : ∀ k b, k < n → P k b → P (k + 1) (body k b)) : P n (loopUp n body a) := by
  induction n with
  | zero => exact h0
  | succ n ih =>
    exact hs n _ (Nat.lt_succ_self n) (ih fun k b hk hb => hs k b (Nat.lt_succ_of_lt hk) hb)

@[simp] theorem loopCollect_zero {α β : Type} (body : Nat → α → β × α) (a : α) : loopCollect 0 body a = ([], a) := rfl

theorem loopCollect_succ {α β : Type} (n : Nat) (body : Nat → α → β × α) (a : α) :
    loopCollect (n + 1) body a =
      ((loopCollect n body a).1 ++ [(body n (loopCollect n body a).2).1], (body n (loopCollect n body a).2).2) := rfl

@[simp] theorem loopCollect_length {α β : Type} (n : Nat) (body : Nat → α → β × α) (a : α) :
    (loopCollect n body a).1.length = n := by
  induction n with
  | zero => rfl
  | succ n ih => simp [loopCollect_succ, ih]

/-- The loop rule for a loop that yields values: what is carried about the values so far and the running state. -/
theorem loopCollect_rule {α β : Type} (P : Nat → List β → α → Prop) (n : Nat) (body : Nat → α → β × α) (a : α)
    (h0 : P 0 [] a) (hs : ∀ k ys b, k < n → P k ys b → P (k + 1) (ys ++ [(body k b).1]) (body k b).2) :
    P n (loopCollect n body a).1 (loopCollect n body a).2 := by
  induction n with
  | zero => exact h0
  | succ n ih =>
    rw [loopCollect_succ]
    exact hs n _ _ (Nat.lt_succ_self n) (ih fun k ys b hk hb => hs k ys b (Nat.lt_succ_of_lt hk) hb)

/-- The same when only the running state matters. -/
theorem loopCollect_state_rule {α β : Type} (P : α → Prop) (n : Nat) (body : Nat → α → β × α) (a : α) (h0 : P a)
    (hs : ∀ k b, k < n → P b → P (body k b).2) : P (loopCollect n body a).2 :=
  loopCollect_rule (fun _ _ b => P b) n body a h0 fun k _ b hk hb => hs k b hk hb

@[simp] theorem vecOf_length {β : Type} (n : Nat) (f : Nat → β) : (vecOf n f).length = n := by simp [vecOf]

@[simp] theorem memRead_vecOf (n : Nat) (f : Nat → Sample) (i : Nat) (h : i < n) : memRead (vecOf n f) i = f i := by
  simp [memRead, vecOf, List.getD, h]

/-- The vector of a space's own words is the space. -/
theorem vecOf_memRead (n : Nat) (sp : List Sample) (h : sp.length = n) : vecOf n (fun i => memRead sp i) = sp := by
  refine space_ext _ _ (by simp [h]) ?_
  intro a ha
  have ha' : a < n := by simpa using ha
  simp [ha']

/-! Shared control operations -/

/-- A PROCESS row either runs its body, in its mode, or is refused, in another. -/
theorem whenMode_cases (m : Mode) (body : State → State) (s : State) :
    (s.mode = m ∧ whenMode m body s = .next (body s)) ∨
    (s.mode ≠ m ∧ whenMode m body s = .refused (.falseModeClaim m)) := by
  unfold whenMode
  by_cases h : s.mode = m
  · exact .inl ⟨h, if_pos h⟩
  · exact .inr ⟨h, if_neg h⟩

theorem whenMode_next {m : Mode} {body : State → State} {s t : State} (h : whenMode m body s = .next t) :
    s.mode = m ∧ t = body s := by
  rcases whenMode_cases m body s with ⟨hm, he⟩ | ⟨_, he⟩
  · rw [he] at h; exact ⟨hm, by injection h with h; exact h.symm⟩
  · rw [he] at h; cases h

@[simp] theorem execAll_nil (s : State) : execAll [] s = .next s := rfl

/-- One operation and then the rest, when the first answers a next state. -/
theorem execAll_cons_next {i : Instr} {s t : State} (is : List Instr) (h : exec i s = .next t) :
    execAll (i :: is) s = execAll is t := by
  simp [execAll, h]

/-- A list of operations that answers a next state: the first did, and the rest did from there. -/
theorem execAll_cons_inv {i : Instr} {is : List Instr} {s u : State} (h : execAll (i :: is) s = .next u) :
    ∃ t, exec i s = .next t ∧ execAll is t = .next u := by
  unfold execAll at h
  cases hi : exec i s with
  | next t => rw [hi] at h; exact ⟨t, rfl, h⟩
  | fault r => cases r
  | refused r => rw [hi] at h; cases h

@[simp] theorem thenState_next (s : State) (f : State → State) : thenState (.next s) f = .next (f s) := rfl

@[simp] theorem thenState_refused (r : Refusal) (f : State → State) : thenState (.refused r) f = .refused r := rfl

theorem thenState_inv {o : Host.Outcome State Fault Refusal} {f : State → State} {u : State}
    (h : thenState o f = .next u) : ∃ t, o = .next t ∧ u = f t := by
  cases o with
  | next t => exact ⟨t, rfl, by injection h with h; exact h.symm⟩
  | fault r => cases r
  | refused r => cases h

end Sys2Proof.Machine
end

