-- ==== Sys2Proof/Laws/Engine.lean ====
section
/-! SUPPORT. What every sub-operation of the pipelines keeps: the engine's cells fit the configuration, DRBUF keeps its
length, the phase and the cursors their ranges. -/

namespace Sys2Proof.Machine

/-! Indices -/

theorem ageIndex_eq (n wc k : Nat) (hk : k < n) : ageIndex n wc k = (wc + n - 1 - k) % n := by
  unfold ageIndex modIndex
  have h : ((wc : Int) - 1 - (k : Int)) % (n : Int) = (((wc + n - 1 - k) % n : Nat) : Int) := by
    rw [← Int.add_emod_right]
    have : ((wc : Int) - 1 - (k : Int)) + (n : Int) = ((wc + n - 1 - k : Nat) : Int) := by omega
    rw [this]; exact (Int.natCast_emod _ _).symm
  rw [h]; exact Int.toNat_natCast _

theorem ageIndex_lt (n wc k : Nat) (h : 0 < n) : ageIndex n wc k < n := by
  unfold ageIndex modIndex
  have h₁ := Int.emod_nonneg ((wc : Int) - 1 - (k : Int)) (b := (n : Int)) (by omega)
  have h₂ := Int.emod_lt_of_pos ((wc : Int) - 1 - (k : Int)) (b := (n : Int)) (by omega)
  omega

/-- XL(k) is the cell `k + 1` behind the write cursor. -/
theorem firXl_eq_ageSample (c : Config) (f : FirCells) (k : Nat) (hk : k < c.nTaps) : firXl c f k = ageSample c f k := by
  unfold firXl ageSample; rw [ageIndex_eq _ _ _ hk]

theorem nextCursor_lt (cur len : Nat) (h : 0 < len) : nextCursor cur len < len := Nat.mod_lt _ h

/-! The engine -/

@[simp] theorem firUpdate_dl (c : Config) (emu : Sample) (f : FirCells) : (firUpdate c emu f).dl = f.dl := rfl
@[simp] theorem firUpdate_wc (c : Config) (emu : Sample) (f : FirCells) : (firUpdate c emu f).wc = f.wc := rfl
@[simp] theorem firPush_h (c : Config) (x : Sample) (f : FirCells) : (firPush c x f).h = f.h := rfl
@[simp] theorem firXl_firUpdate (c : Config) (emu : Sample) (f : FirCells) (k : Nat) :
    firXl c (firUpdate c emu f) k = firXl c f k := rfl

@[simp] theorem firUpdate_h_length (c : Config) (emu : Sample) (f : FirCells) :
    (firUpdate c emu f).h.length = f.h.length :=
  loopUp_rule (fun _ (h : List Sample) => h.length = f.h.length) c.nTaps _ f.h rfl fun _ b _ hb => by simpa using hb

theorem firUpdate_fits {c : Config} {f : FirCells} (emu : Sample) (hf : f.Fits c) : (firUpdate c emu f).Fits c :=
  ⟨by simpa using hf.1, hf.2.1, hf.2.2⟩

theorem firPush_fits {c : Config} {f : FirCells} (x : Sample) (hf : f.Fits c) : (firPush c x f).Fits c :=
  ⟨hf.1, by simpa [firPush] using hf.2.1, nextCursor_lt _ _ (Nat.zero_lt_of_lt hf.2.2)⟩

theorem lmsStep_fits {c : Config} {f : FirCells} (x d : Sample) (hf : f.Fits c) : (lmsStep c x d f).2.Fits c :=
  firPush_fits x (firUpdate_fits _ hf)

theorem lmsBlock_fits {c : Config} {f : FirCells} (x d : List Sample) (hf : f.Fits c) : (lmsBlock c x d f).2.Fits c :=
  loopCollect_state_rule (fun g : FirCells => g.Fits c) _ _ _ hf fun _ _ _ hb => lmsStep_fits _ _ hb

@[simp] theorem lmsBlock_length (c : Config) (x d : List Sample) (f : FirCells) : (lmsBlock c x d f).1.length = c.n :=
  loopCollect_length _ _ _

/-! The delay buffer -/

@[simp] theorem dlyShift_length (c : Config) (dr : List Sample) : (dlyShift c dr).length = dr.length :=
  loopUp_rule (fun _ (b : List Sample) => b.length = dr.length) c.delay _ dr rfl fun _ b _ hb => by simpa using hb

@[simp] theorem dlyLoad_length (c : Config) (s dr : List Sample) : (dlyLoad c s dr).length = dr.length :=
  loopUp_rule (fun _ (b : List Sample) => b.length = dr.length) c.n _ dr rfl fun _ b _ hb => by simpa using hb

@[simp] theorem dlyUpdate_length (c : Config) (s dr : List Sample) : (dlyUpdate c s dr).length = dr.length := by
  simp [dlyUpdate]

/-! The carrier and the modulator -/

theorem fullTurn_pos (c : Config) : 0 < c.fullTurn := Nat.two_pow_pos _

theorem phaseAdv_lt (c : Config) (p : Nat) : phaseAdv c p < c.fullTurn := Nat.mod_lt _ (fullTurn_pos c)

@[simp] theorem carrierTick_phase (c : Config) (p : Nat) : (carrierTick c p).2 = phaseAdv c p := rfl

/-- What MOD.SAMPLE leaves: the phase one advance on, the coefficient it used, the other cells as they were. -/
@[simp] theorem modSample_state (c : Config) (tr sel : Bool) (n : Nat) (m : ModCells) :
    (modSample c tr sel n m).2 = { m with phase := phaseAdv c m.phase, icoef := modCoef c tr sel n m.icoef } := rfl

/-- What MOD.SAMPLE yields: the mix of the coefficient it used with the carriers at the advanced phase. -/
@[simp] theorem modSample_value (c : Config) (tr sel : Bool) (n : Nat) (m : ModCells) :
    (modSample c tr sel n m).1 = modMix c (modCoef c tr sel n m.icoef) (sinAt c (phaseAdv c m.phase))
      (cosAt c (phaseAdv c m.phase)) := rfl

/-- MOD.BLOCK with its symbol's start and decision made: a loop of MOD.SAMPLE. -/
theorem modBlock_eq (c : Config) (m : ModCells) :
    modBlock c m = loopCollect c.n
      (fun n k => modSample c (!bitRead c.bits m.bitcur) m.sign n k)
      { m with
        bitcur := nextCursor m.bitcur c.bitsLen
        testOut := bitRead c.bits m.bitcur
        sign := toggleSign (!bitRead c.bits m.bitcur) m.sign } := rfl

@[simp] theorem modBlock_length (c : Config) (m : ModCells) : (modBlock c m).1.length = c.n := by
  rw [modBlock_eq]; exact loopCollect_length _ _ _

/-! The converters -/

@[simp] theorem reint_length (c : Config) (lout rout outb : List Sample) : (reint c lout rout outb).length = outb.length :=
  loopUp_rule (fun _ (o : List Sample) => o.length = outb.length) c.n _ outb rfl fun _ b _ hb => by simpa using hb

/-- The re-interleaver writes the words below twice the count and no other. -/
theorem memRead_reint (c : Config) (lout rout outb : List Sample) (hl : 2 * c.n ≤ outb.length) (a : Nat) :
    memRead (reint c lout rout outb) a =
      if a < 2 * c.n then (if a % 2 = 0 then memRead lout (a / 2) else memRead rout (a / 2)) else memRead outb a := by
  have key : ∀ n, 2 * n ≤ outb.length → ∀ o : List Sample, o = loopUp n (fun j o =>
      memWrite (memWrite o (leftIndex j) (memRead lout j)) (rightIndex j) (memRead rout j)) outb →
      o.length = outb.length ∧ ∀ a, memRead o a =
        if a < 2 * n then (if a % 2 = 0 then memRead lout (a / 2) else memRead rout (a / 2)) else memRead outb a := by
    intro n
    induction n with
    | zero => intro _ o ho; subst ho; simp
    | succ n ih =>
      intro hn o ho
      obtain ⟨hlen, hread⟩ := ih (by omega) _ rfl
      rw [loopUp_succ] at ho
      subst ho
      refine ⟨by simpa using hlen, fun a => ?_⟩
      have hr : rightIndex n = 2 * n + 1 := rfl
      have hle : leftIndex n = 2 * n := rfl
      rw [memRead_memWrite _ _ _ _ (by rw [memWrite_length, hr, hlen]; omega),
        memRead_memWrite _ _ _ _ (by rw [hle, hlen]; omega), hread a]
      by_cases h₁ : a = rightIndex n
      · rw [if_pos h₁, if_pos (by omega), if_neg (by omega)]
        congr 1; omega
      · rw [if_neg h₁]
        by_cases h₂ : a = leftIndex n
        · rw [if_pos h₂, if_pos (by omega), if_pos (by omega)]
          congr 1; omega
        · rw [if_neg h₂]
          by_cases h₃ : a < 2 * n
          · rw [if_pos h₃, if_pos (show a < 2 * (n + 1) by omega)]
          · rw [if_neg h₃, if_neg (by omega)]
  exact (key c.n hl _ rfl).2 a

end Sys2Proof.Machine
end

