-- ==== Sys2Proof/Laws/State.lean ====
section
/-! SUPPORT. One lemma per field per update of State, each true by rfl, so that no later proof unfolds an update. -/

namespace Sys2Proof.Machine

/-! `latchInc` -/

@[simp] theorem latchInc_cfg (s : State) : (latchInc s).cfg = s.cfg := rfl
@[simp] theorem latchInc_mode (s : State) : (latchInc s).mode = s.mode := rfl
@[simp] theorem latchInc_incPend (s : State) : (latchInc s).incPend = true := rfl
@[simp] theorem latchInc_decPend (s : State) : (latchInc s).decPend = s.decPend := rfl
@[simp] theorem latchInc_sign (s : State) : (latchInc s).sign = s.sign := rfl
@[simp] theorem latchInc_ind (s : State) : (latchInc s).ind = s.ind := rfl
@[simp] theorem latchInc_testOut (s : State) : (latchInc s).testOut = s.testOut := rfl
@[simp] theorem latchInc_busy (s : State) : (latchInc s).busy = s.busy := rfl
@[simp] theorem latchInc_h (s : State) : (latchInc s).h = s.h := rfl
@[simp] theorem latchInc_dl (s : State) : (latchInc s).dl = s.dl := rfl
@[simp] theorem latchInc_wc (s : State) : (latchInc s).wc = s.wc := rfl
@[simp] theorem latchInc_drbuf (s : State) : (latchInc s).drbuf = s.drbuf := rfl
@[simp] theorem latchInc_phase (s : State) : (latchInc s).phase = s.phase := rfl
@[simp] theorem latchInc_icoef (s : State) : (latchInc s).icoef = s.icoef := rfl
@[simp] theorem latchInc_bitcur (s : State) : (latchInc s).bitcur = s.bitcur := rfl
@[simp] theorem latchInc_inbuf (s : State) : (latchInc s).inbuf = s.inbuf := rfl
@[simp] theorem latchInc_outbuf (s : State) : (latchInc s).outbuf = s.outbuf := rfl
@[simp] theorem latchInc_done (s : State) : (latchInc s).done = s.done := rfl
@[simp] theorem latchInc_script (s : State) : (latchInc s).script = s.script := rfl

/-! `latchDec` -/

@[simp] theorem latchDec_cfg (s : State) : (latchDec s).cfg = s.cfg := rfl
@[simp] theorem latchDec_mode (s : State) : (latchDec s).mode = s.mode := rfl
@[simp] theorem latchDec_incPend (s : State) : (latchDec s).incPend = s.incPend := rfl
@[simp] theorem latchDec_decPend (s : State) : (latchDec s).decPend = true := rfl
@[simp] theorem latchDec_sign (s : State) : (latchDec s).sign = s.sign := rfl
@[simp] theorem latchDec_ind (s : State) : (latchDec s).ind = s.ind := rfl
@[simp] theorem latchDec_testOut (s : State) : (latchDec s).testOut = s.testOut := rfl
@[simp] theorem latchDec_busy (s : State) : (latchDec s).busy = s.busy := rfl
@[simp] theorem latchDec_h (s : State) : (latchDec s).h = s.h := rfl
@[simp] theorem latchDec_dl (s : State) : (latchDec s).dl = s.dl := rfl
@[simp] theorem latchDec_wc (s : State) : (latchDec s).wc = s.wc := rfl
@[simp] theorem latchDec_drbuf (s : State) : (latchDec s).drbuf = s.drbuf := rfl
@[simp] theorem latchDec_phase (s : State) : (latchDec s).phase = s.phase := rfl
@[simp] theorem latchDec_icoef (s : State) : (latchDec s).icoef = s.icoef := rfl
@[simp] theorem latchDec_bitcur (s : State) : (latchDec s).bitcur = s.bitcur := rfl
@[simp] theorem latchDec_inbuf (s : State) : (latchDec s).inbuf = s.inbuf := rfl
@[simp] theorem latchDec_outbuf (s : State) : (latchDec s).outbuf = s.outbuf := rfl
@[simp] theorem latchDec_done (s : State) : (latchDec s).done = s.done := rfl
@[simp] theorem latchDec_script (s : State) : (latchDec s).script = s.script := rfl

/-! `refreshInd` -/

@[simp] theorem refreshInd_cfg (s : State) : (refreshInd s).cfg = s.cfg := rfl
@[simp] theorem refreshInd_mode (s : State) : (refreshInd s).mode = s.mode := rfl
@[simp] theorem refreshInd_incPend (s : State) : (refreshInd s).incPend = s.incPend := rfl
@[simp] theorem refreshInd_decPend (s : State) : (refreshInd s).decPend = s.decPend := rfl
@[simp] theorem refreshInd_sign (s : State) : (refreshInd s).sign = s.sign := rfl
@[simp] theorem refreshInd_ind (s : State) : (refreshInd s).ind = modeCode s.mode := rfl
@[simp] theorem refreshInd_testOut (s : State) : (refreshInd s).testOut = s.testOut := rfl
@[simp] theorem refreshInd_busy (s : State) : (refreshInd s).busy = s.busy := rfl
@[simp] theorem refreshInd_h (s : State) : (refreshInd s).h = s.h := rfl
@[simp] theorem refreshInd_dl (s : State) : (refreshInd s).dl = s.dl := rfl
@[simp] theorem refreshInd_wc (s : State) : (refreshInd s).wc = s.wc := rfl
@[simp] theorem refreshInd_drbuf (s : State) : (refreshInd s).drbuf = s.drbuf := rfl
@[simp] theorem refreshInd_phase (s : State) : (refreshInd s).phase = s.phase := rfl
@[simp] theorem refreshInd_icoef (s : State) : (refreshInd s).icoef = s.icoef := rfl
@[simp] theorem refreshInd_bitcur (s : State) : (refreshInd s).bitcur = s.bitcur := rfl
@[simp] theorem refreshInd_inbuf (s : State) : (refreshInd s).inbuf = s.inbuf := rfl
@[simp] theorem refreshInd_outbuf (s : State) : (refreshInd s).outbuf = s.outbuf := rfl
@[simp] theorem refreshInd_done (s : State) : (refreshInd s).done = s.done := rfl
@[simp] theorem refreshInd_script (s : State) : (refreshInd s).script = s.script := rfl

/-! `acceptCommand` -/

@[simp] theorem acceptCommand_cfg (s : State) : (acceptCommand s).cfg = s.cfg := rfl
@[simp] theorem acceptCommand_mode (s : State) : (acceptCommand s).mode = s.mode := rfl
@[simp] theorem acceptCommand_incPend (s : State) : (acceptCommand s).incPend = s.incPend := rfl
@[simp] theorem acceptCommand_decPend (s : State) : (acceptCommand s).decPend = s.decPend := rfl
@[simp] theorem acceptCommand_sign (s : State) : (acceptCommand s).sign = s.sign := rfl
@[simp] theorem acceptCommand_ind (s : State) : (acceptCommand s).ind = s.ind := rfl
@[simp] theorem acceptCommand_testOut (s : State) : (acceptCommand s).testOut = s.testOut := rfl
@[simp] theorem acceptCommand_busy (s : State) : (acceptCommand s).busy = true := rfl
@[simp] theorem acceptCommand_h (s : State) : (acceptCommand s).h = s.h := rfl
@[simp] theorem acceptCommand_dl (s : State) : (acceptCommand s).dl = s.dl := rfl
@[simp] theorem acceptCommand_wc (s : State) : (acceptCommand s).wc = s.wc := rfl
@[simp] theorem acceptCommand_drbuf (s : State) : (acceptCommand s).drbuf = s.drbuf := rfl
@[simp] theorem acceptCommand_phase (s : State) : (acceptCommand s).phase = s.phase := rfl
@[simp] theorem acceptCommand_icoef (s : State) : (acceptCommand s).icoef = s.icoef := rfl
@[simp] theorem acceptCommand_bitcur (s : State) : (acceptCommand s).bitcur = s.bitcur := rfl
@[simp] theorem acceptCommand_inbuf (s : State) : (acceptCommand s).inbuf = s.inbuf := rfl
@[simp] theorem acceptCommand_outbuf (s : State) : (acceptCommand s).outbuf = s.outbuf := rfl
@[simp] theorem acceptCommand_done (s : State) : (acceptCommand s).done = s.done := rfl
@[simp] theorem acceptCommand_script (s : State) : (acceptCommand s).script = s.script := rfl

/-! `completeCommand` -/

@[simp] theorem completeCommand_cfg (s : State) : (completeCommand s).cfg = s.cfg := rfl
@[simp] theorem completeCommand_mode (s : State) : (completeCommand s).mode = s.mode := rfl
@[simp] theorem completeCommand_incPend (s : State) : (completeCommand s).incPend = s.incPend := rfl
@[simp] theorem completeCommand_decPend (s : State) : (completeCommand s).decPend = s.decPend := rfl
@[simp] theorem completeCommand_sign (s : State) : (completeCommand s).sign = s.sign := rfl
@[simp] theorem completeCommand_ind (s : State) : (completeCommand s).ind = s.ind := rfl
@[simp] theorem completeCommand_testOut (s : State) : (completeCommand s).testOut = s.testOut := rfl
@[simp] theorem completeCommand_busy (s : State) : (completeCommand s).busy = false := rfl
@[simp] theorem completeCommand_h (s : State) : (completeCommand s).h = s.h := rfl
@[simp] theorem completeCommand_dl (s : State) : (completeCommand s).dl = s.dl := rfl
@[simp] theorem completeCommand_wc (s : State) : (completeCommand s).wc = s.wc := rfl
@[simp] theorem completeCommand_drbuf (s : State) : (completeCommand s).drbuf = s.drbuf := rfl
@[simp] theorem completeCommand_phase (s : State) : (completeCommand s).phase = s.phase := rfl
@[simp] theorem completeCommand_icoef (s : State) : (completeCommand s).icoef = s.icoef := rfl
@[simp] theorem completeCommand_bitcur (s : State) : (completeCommand s).bitcur = s.bitcur := rfl
@[simp] theorem completeCommand_inbuf (s : State) : (completeCommand s).inbuf = s.inbuf := rfl
@[simp] theorem completeCommand_outbuf (s : State) : (completeCommand s).outbuf = s.outbuf := rfl
@[simp] theorem completeCommand_done (s : State) : (completeCommand s).done = true := rfl
@[simp] theorem completeCommand_script (s : State) : (completeCommand s).script = s.script := rfl

/-! `idleStep` -/

@[simp] theorem idleStep_cfg (s : State) : (idleStep s).cfg = s.cfg := rfl
@[simp] theorem idleStep_mode (s : State) : (idleStep s).mode = s.mode := rfl
@[simp] theorem idleStep_incPend (s : State) : (idleStep s).incPend = s.incPend := rfl
@[simp] theorem idleStep_decPend (s : State) : (idleStep s).decPend = s.decPend := rfl
@[simp] theorem idleStep_sign (s : State) : (idleStep s).sign = s.sign := rfl
@[simp] theorem idleStep_ind (s : State) : (idleStep s).ind = s.ind := rfl
@[simp] theorem idleStep_testOut (s : State) : (idleStep s).testOut = s.testOut := rfl
@[simp] theorem idleStep_busy (s : State) : (idleStep s).busy = s.busy := rfl
@[simp] theorem idleStep_h (s : State) : (idleStep s).h = s.h := rfl
@[simp] theorem idleStep_dl (s : State) : (idleStep s).dl = s.dl := rfl
@[simp] theorem idleStep_wc (s : State) : (idleStep s).wc = s.wc := rfl
@[simp] theorem idleStep_drbuf (s : State) : (idleStep s).drbuf = s.drbuf := rfl
@[simp] theorem idleStep_phase (s : State) : (idleStep s).phase = s.phase := rfl
@[simp] theorem idleStep_icoef (s : State) : (idleStep s).icoef = s.icoef := rfl
@[simp] theorem idleStep_bitcur (s : State) : (idleStep s).bitcur = s.bitcur := rfl
@[simp] theorem idleStep_inbuf (s : State) : (idleStep s).inbuf = s.inbuf := rfl
@[simp] theorem idleStep_outbuf (s : State) : (idleStep s).outbuf = s.outbuf := rfl
@[simp] theorem idleStep_done (s : State) : (idleStep s).done = false := rfl
@[simp] theorem idleStep_script (s : State) : (idleStep s).script = s.script := rfl

/-! `holdMove` -/

@[simp] theorem holdMove_cfg (m : HostMove) (s : State) : (holdMove m s).cfg = s.cfg := rfl
@[simp] theorem holdMove_mode (m : HostMove) (s : State) : (holdMove m s).mode = s.mode := rfl
@[simp] theorem holdMove_incPend (m : HostMove) (s : State) : (holdMove m s).incPend = s.incPend := rfl
@[simp] theorem holdMove_decPend (m : HostMove) (s : State) : (holdMove m s).decPend = s.decPend := rfl
@[simp] theorem holdMove_sign (m : HostMove) (s : State) : (holdMove m s).sign = s.sign := rfl
@[simp] theorem holdMove_ind (m : HostMove) (s : State) : (holdMove m s).ind = s.ind := rfl
@[simp] theorem holdMove_testOut (m : HostMove) (s : State) : (holdMove m s).testOut = s.testOut := rfl
@[simp] theorem holdMove_busy (m : HostMove) (s : State) : (holdMove m s).busy = s.busy := rfl
@[simp] theorem holdMove_h (m : HostMove) (s : State) : (holdMove m s).h = s.h := rfl
@[simp] theorem holdMove_dl (m : HostMove) (s : State) : (holdMove m s).dl = s.dl := rfl
@[simp] theorem holdMove_wc (m : HostMove) (s : State) : (holdMove m s).wc = s.wc := rfl
@[simp] theorem holdMove_drbuf (m : HostMove) (s : State) : (holdMove m s).drbuf = s.drbuf := rfl
@[simp] theorem holdMove_phase (m : HostMove) (s : State) : (holdMove m s).phase = s.phase := rfl
@[simp] theorem holdMove_icoef (m : HostMove) (s : State) : (holdMove m s).icoef = s.icoef := rfl
@[simp] theorem holdMove_bitcur (m : HostMove) (s : State) : (holdMove m s).bitcur = s.bitcur := rfl
@[simp] theorem holdMove_inbuf (m : HostMove) (s : State) : (holdMove m s).inbuf = s.inbuf := rfl
@[simp] theorem holdMove_outbuf (m : HostMove) (s : State) : (holdMove m s).outbuf = s.outbuf := rfl
@[simp] theorem holdMove_done (m : HostMove) (s : State) : (holdMove m s).done = s.done := rfl
@[simp] theorem holdMove_script (m : HostMove) (s : State) : (holdMove m s).script = m :: s.script := rfl

/-! `withFir` -/

@[simp] theorem State.withFir_cfg (s : State) (f : FirCells) : (s.withFir f).cfg = s.cfg := rfl
@[simp] theorem State.withFir_mode (s : State) (f : FirCells) : (s.withFir f).mode = s.mode := rfl
@[simp] theorem State.withFir_incPend (s : State) (f : FirCells) : (s.withFir f).incPend = s.incPend := rfl
@[simp] theorem State.withFir_decPend (s : State) (f : FirCells) : (s.withFir f).decPend = s.decPend := rfl
@[simp] theorem State.withFir_sign (s : State) (f : FirCells) : (s.withFir f).sign = s.sign := rfl
@[simp] theorem State.withFir_ind (s : State) (f : FirCells) : (s.withFir f).ind = s.ind := rfl
@[simp] theorem State.withFir_testOut (s : State) (f : FirCells) : (s.withFir f).testOut = s.testOut := rfl
@[simp] theorem State.withFir_busy (s : State) (f : FirCells) : (s.withFir f).busy = s.busy := rfl
@[simp] theorem State.withFir_h (s : State) (f : FirCells) : (s.withFir f).h = f.h := rfl
@[simp] theorem State.withFir_dl (s : State) (f : FirCells) : (s.withFir f).dl = f.dl := rfl
@[simp] theorem State.withFir_wc (s : State) (f : FirCells) : (s.withFir f).wc = f.wc := rfl
@[simp] theorem State.withFir_drbuf (s : State) (f : FirCells) : (s.withFir f).drbuf = s.drbuf := rfl
@[simp] theorem State.withFir_phase (s : State) (f : FirCells) : (s.withFir f).phase = s.phase := rfl
@[simp] theorem State.withFir_icoef (s : State) (f : FirCells) : (s.withFir f).icoef = s.icoef := rfl
@[simp] theorem State.withFir_bitcur (s : State) (f : FirCells) : (s.withFir f).bitcur = s.bitcur := rfl
@[simp] theorem State.withFir_inbuf (s : State) (f : FirCells) : (s.withFir f).inbuf = s.inbuf := rfl
@[simp] theorem State.withFir_outbuf (s : State) (f : FirCells) : (s.withFir f).outbuf = s.outbuf := rfl
@[simp] theorem State.withFir_done (s : State) (f : FirCells) : (s.withFir f).done = s.done := rfl
@[simp] theorem State.withFir_script (s : State) (f : FirCells) : (s.withFir f).script = s.script := rfl

/-! `withMod` -/

@[simp] theorem State.withMod_cfg (s : State) (m : ModCells) : (s.withMod m).cfg = s.cfg := rfl
@[simp] theorem State.withMod_mode (s : State) (m : ModCells) : (s.withMod m).mode = s.mode := rfl
@[simp] theorem State.withMod_incPend (s : State) (m : ModCells) : (s.withMod m).incPend = s.incPend := rfl
@[simp] theorem State.withMod_decPend (s : State) (m : ModCells) : (s.withMod m).decPend = s.decPend := rfl
@[simp] theorem State.withMod_sign (s : State) (m : ModCells) : (s.withMod m).sign = m.sign := rfl
@[simp] theorem State.withMod_ind (s : State) (m : ModCells) : (s.withMod m).ind = s.ind := rfl
@[simp] theorem State.withMod_testOut (s : State) (m : ModCells) : (s.withMod m).testOut = m.testOut := rfl
@[simp] theorem State.withMod_busy (s : State) (m : ModCells) : (s.withMod m).busy = s.busy := rfl
@[simp] theorem State.withMod_h (s : State) (m : ModCells) : (s.withMod m).h = s.h := rfl
@[simp] theorem State.withMod_dl (s : State) (m : ModCells) : (s.withMod m).dl = s.dl := rfl
@[simp] theorem State.withMod_wc (s : State) (m : ModCells) : (s.withMod m).wc = s.wc := rfl
@[simp] theorem State.withMod_drbuf (s : State) (m : ModCells) : (s.withMod m).drbuf = s.drbuf := rfl
@[simp] theorem State.withMod_phase (s : State) (m : ModCells) : (s.withMod m).phase = m.phase := rfl
@[simp] theorem State.withMod_icoef (s : State) (m : ModCells) : (s.withMod m).icoef = m.icoef := rfl
@[simp] theorem State.withMod_bitcur (s : State) (m : ModCells) : (s.withMod m).bitcur = m.bitcur := rfl
@[simp] theorem State.withMod_inbuf (s : State) (m : ModCells) : (s.withMod m).inbuf = s.inbuf := rfl
@[simp] theorem State.withMod_outbuf (s : State) (m : ModCells) : (s.withMod m).outbuf = s.outbuf := rfl
@[simp] theorem State.withMod_done (s : State) (m : ModCells) : (s.withMod m).done = s.done := rfl
@[simp] theorem State.withMod_script (s : State) (m : ModCells) : (s.withMod m).script = s.script := rfl

/-! `applyReset` -/

@[simp] theorem applyReset_cfg (s : State) : (applyReset s).cfg = s.cfg := rfl
@[simp] theorem applyReset_mode (s : State) : (applyReset s).mode = .passThrough := rfl
@[simp] theorem applyReset_incPend (s : State) : (applyReset s).incPend = false := rfl
@[simp] theorem applyReset_decPend (s : State) : (applyReset s).decPend = false := rfl
@[simp] theorem applyReset_sign (s : State) : (applyReset s).sign = false := rfl
@[simp] theorem applyReset_ind (s : State) : (applyReset s).ind = 0 := rfl
@[simp] theorem applyReset_testOut (s : State) : (applyReset s).testOut = false := rfl
@[simp] theorem applyReset_busy (s : State) : (applyReset s).busy = false := rfl
@[simp] theorem applyReset_h (s : State) : (applyReset s).h = List.replicate s.cfg.nTaps 0 := rfl
@[simp] theorem applyReset_dl (s : State) : (applyReset s).dl = List.replicate s.cfg.nTaps 0 := rfl
@[simp] theorem applyReset_wc (s : State) : (applyReset s).wc = 0 := rfl
@[simp] theorem applyReset_drbuf (s : State) : (applyReset s).drbuf = List.replicate s.cfg.drLen 0 := rfl
@[simp] theorem applyReset_phase (s : State) : (applyReset s).phase = 0 := rfl
@[simp] theorem applyReset_icoef (s : State) : (applyReset s).icoef = 0x7FFF := rfl
@[simp] theorem applyReset_bitcur (s : State) : (applyReset s).bitcur = 0 := rfl
@[simp] theorem applyReset_inbuf (s : State) : (applyReset s).inbuf = s.inbuf := rfl
@[simp] theorem applyReset_outbuf (s : State) : (applyReset s).outbuf = s.outbuf := rfl
@[simp] theorem applyReset_done (s : State) : (applyReset s).done = false := rfl
@[simp] theorem applyReset_script (s : State) : (applyReset s).script = s.script := rfl

/-! The cells a pipeline passes on, read back. -/

@[simp] theorem State.firCells_withFir (s : State) (f : FirCells) : (s.withFir f).firCells = f := rfl
@[simp] theorem State.modCells_withMod (s : State) (m : ModCells) : (s.withMod m).modCells = m := rfl
@[simp] theorem State.withFir_firCells (s : State) : s.withFir s.firCells = s := rfl
@[simp] theorem State.withMod_modCells (s : State) : s.withMod s.modCells = s := rfl
@[simp] theorem State.modCells_withFir (s : State) (f : FirCells) : (s.withFir f).modCells = s.modCells := rfl
@[simp] theorem State.firCells_withMod (s : State) (m : ModCells) : (s.withMod m).firCells = s.firCells := rfl

end Sys2Proof.Machine
end

