-- ==== Sys2Proof/Laws/Mode.lean ====
section
/-! SUPPORT. The mode's number and steps, the flags' operations, and what a control tick leaves. -/

namespace Sys2Proof.Machine

@[simp] theorem modeOfCode_modeCode (m : Mode) : modeOfCode (modeCode m) = m := by cases m <;> rfl

@[simp] theorem modeCode_modeOfCode (b : BitVec 2) : modeCode (modeOfCode b) = b := by
  revert b; decide

theorem modeCode_injective {m k : Mode} (h : modeCode m = modeCode k) : m = k := by
  rw [← modeOfCode_modeCode m, h, modeOfCode_modeCode]

@[simp] theorem modeUp_modeDown (m : Mode) : modeUp (modeDown m) = m := by cases m <;> rfl

@[simp] theorem modeDown_modeUp (m : Mode) : modeDown (modeUp m) = m := by cases m <;> rfl

/-- Consuming the increment: the flag falls, MODE steps up, and the answer says whether it was set. -/
theorem consumeInc_spec (s : State) :
    consumeInc s = (s.incPend, { s with incPend := false, mode := if s.incPend then modeUp s.mode else s.mode }) := by
  cases s with
  | mk cfg mode incPend => cases incPend <;> rfl

/-- Consuming the decrement: the flag falls, MODE steps down, and the answer says whether it was set. -/
theorem consumeDec_spec (s : State) :
    consumeDec s = (s.decPend, { s with decPend := false, mode := if s.decPend then modeDown s.mode else s.mode }) := by
  cases s with
  | mk cfg mode incPend decPend => cases decPend <;> rfl

/-- All a control tick can do: it writes the two flags, MODE and IND. -/
theorem ctrlTick_writes (s : State) :
    ∃ m i, ctrlTick s = { s with incPend := false, decPend := false, mode := m, ind := i } := by
  unfold ctrlTick
  rw [consumeInc_spec]
  simp only [consumeDec_spec]
  split
  · exact ⟨_, _, rfl⟩
  · exact ⟨_, _, rfl⟩

@[simp] theorem toggleSign_true (b : Bool) : toggleSign true b = !b := rfl
@[simp] theorem toggleSign_false (b : Bool) : toggleSign false b = b := rfl

end Sys2Proof.Machine
end

