-- ==== Sys2Proof/Laws/PerInstr.lean ====
section
/-! SUPPORT. One family of facts about every instruction as syntax: its encoded word agrees with its row of
spec/opcode_table.json, in the port, the mask and the match. -/

namespace Sys2Proof.Laws

/-- The match of an instruction's row, on the port of its format. -/
def rowMatch : Instr → PortWord
  | .init => .cmd 0x01
  | .processPass => .cmd 0x02
  | .processNotch => .cmd 0x02
  | .processTone => .cmd 0x02
  | .processMod => .cmd 0x02
  | .ctrlTick => .cmd 0x03
  | .evInc => .ev 0x1
  | .evDec => .ev 0x2

/-- The mask of an instruction's row, on the port of its format. -/
def rowMask : Instr → PortWord
  | .init => .cmd 0xFF
  | .processPass => .cmd 0xFF
  | .processNotch => .cmd 0xFF
  | .processTone => .cmd 0xFF
  | .processMod => .cmd 0xFF
  | .ctrlTick => .cmd 0xFF
  | .evInc => .ev 0x1
  | .evDec => .ev 0x2

/-- A word agrees with a mask and a match when they are of one port and the masked word is the match. -/
def agrees : PortWord → PortWord → PortWord → Bool
  | .cmd w, .cmd mask, .cmd m => decide (w &&& mask = m)
  | .ev w, .ev mask, .ev m => decide (w &&& mask = m)
  | _, _, _ => false

/-- The instruction's encoded word agrees with its row of the opcode table. -/
def WordMatchesTable.Statement (i : Instr) : Prop := agrees (encode i) (rowMask i) (rowMatch i) = true

theorem WordMatchesTable.init : WordMatchesTable.Statement .init := by unfold Statement; decide
theorem WordMatchesTable.processPass : WordMatchesTable.Statement .processPass := by unfold Statement; decide
theorem WordMatchesTable.processNotch : WordMatchesTable.Statement .processNotch := by unfold Statement; decide
theorem WordMatchesTable.processTone : WordMatchesTable.Statement .processTone := by unfold Statement; decide
theorem WordMatchesTable.processMod : WordMatchesTable.Statement .processMod := by unfold Statement; decide
theorem WordMatchesTable.ctrlTick : WordMatchesTable.Statement .ctrlTick := by unfold Statement; decide
theorem WordMatchesTable.evInc : WordMatchesTable.Statement .evInc := by unfold Statement; decide
theorem WordMatchesTable.evDec : WordMatchesTable.Statement .evDec := by unfold Statement; decide

end Sys2Proof.Laws
end

