-- ==== Sys2Proof/Laws/Shape.lean ====
section
/-! SUPPORT. The two checks of a step, spelled out: what a well-formed configuration and a shaped state give. -/

namespace Sys2Proof

theorem Config.wf_iff (c : Config) : c.wf = true ↔
    c.blockLen % 2 = 0 ∧ 2 ≤ c.blockLen ∧ 1 ≤ c.nTaps ∧ 1 ≤ c.sampleRate ∧ 2 ≤ c.phaseW ∧ c.sineBits ≤ c.phaseW ∧
    c.sine.length = 2 ^ c.sineBits ∧ c.shapeA.length = c.n ∧ c.shapeB.length = c.n ∧ c.bits.length = c.bitsLen ∧
    1 ≤ c.bitsLen := by
  unfold Config.wf
  simp only [Bool.and_eq_true, decide_eq_true_eq, and_assoc]

/-- A block holds N pairs and N is positive (00_scope.md R11, R12). -/
theorem Config.two_n {c : Config} (h : c.wf = true) : 2 * c.n = c.blockLen ∧ 0 < c.n := by
  obtain ⟨h₁, h₂, _⟩ := (Config.wf_iff c).1 h
  unfold Config.n
  omega

end Sys2Proof

namespace Sys2Proof.Machine

theorem State.shapeOk_iff (s : State) : s.shapeOk = true ↔
    s.cfg.wf = true ∧ s.h.length = s.cfg.nTaps ∧ s.dl.length = s.cfg.nTaps ∧ s.wc < s.cfg.nTaps ∧
    s.drbuf.length = s.cfg.drLen ∧ s.phase < s.cfg.fullTurn ∧ s.bitcur < s.cfg.bitsLen ∧
    s.inbuf.length = s.cfg.blockLen ∧ s.outbuf.length = s.cfg.blockLen := by
  unfold State.shapeOk spaceWf
  simp only [Bool.and_eq_true, decide_eq_true_eq, and_assoc]

theorem State.shapeOk_wf {s : State} (h : s.shapeOk = true) : s.cfg.wf = true := ((State.shapeOk_iff s).1 h).1

/-- The shape of a state does not look at the control cells, the modulator's ICOEF, or the model's own fields. -/
theorem State.shapeOk_congr {s t : State} (h : s.shapeOk = true) (hc : t.cfg = s.cfg) (hh : t.h.length = s.h.length)
    (hd : t.dl.length = s.dl.length) (hw : t.wc < t.cfg.nTaps) (hr : t.drbuf.length = s.drbuf.length)
    (hp : t.phase < t.cfg.fullTurn) (hb : t.bitcur < t.cfg.bitsLen) (hi : t.inbuf.length = s.inbuf.length)
    (ho : t.outbuf.length = s.outbuf.length) : t.shapeOk = true := by
  have h' := (State.shapeOk_iff s).1 h
  rw [State.shapeOk_iff]
  rw [hc] at hw hp hb ⊢
  rw [hh, hd, hr, hi, ho]
  exact ⟨h'.1, h'.2.1, h'.2.2.1, hw, h'.2.2.2.2.1, hp, hb, h'.2.2.2.2.2.2.2.1, h'.2.2.2.2.2.2.2.2⟩

end Sys2Proof.Machine
end

