-- ==== Sys2Proof/Laws/Ports.lean ====
section
/-! SUPPORT. What a step can do, said once: the fetch, the decoder's cases, and the inversion of a step that answers a
next state. -/

namespace Sys2Proof.Machine

/-- The state a move is performed on: the move is off the script and the strobe is low. -/
theorem fetchMove_cons {s : State} {m : HostMove} {rest : List HostMove} (h : s.script = m :: rest) :
    fetchMove s = some (m, { s with script := rest, done := false }) := by
  unfold fetchMove; rw [h]

theorem step_shaped {s : State} (h : s.shapeOk = true) : step s = stepShaped s := by
  unfold step; rw [if_pos (State.shapeOk_wf h), if_pos h]

/-- A step of a shaped state performs the next move. -/
theorem step_move {s : State} {m : HostMove} {rest : List HostMove} (h : s.shapeOk = true) (hs : s.script = m :: rest) :
    step s = runMove m { s with script := rest, done := false } := by
  rw [step_shaped h]; unfold stepShaped; rw [fetchMove_cons hs]

/-- With an empty script a step is idle. -/
theorem step_idle {s : State} (h : s.shapeOk = true) (hs : s.script = []) : step s = .next (idleStep s) := by
  rw [step_shaped h]; unfold stepShaped fetchMove; rw [hs]

/-- A step that answers a next state started from a shaped state. -/
theorem step_next_shaped {s t : State} (h : step s = .next t) : s.shapeOk = true ∧ stepShaped s = .next t := by
  unfold step at h
  split_ifs at h with hc hs
  exact ⟨hs, h⟩

/-- The three words the decoder reads, and the rest. -/
theorem decodeCommand_cases (m : Mode) (w : BitVec 8) :
    (w = 0x01#8 ∧ decodeCommand m w = .ok .init) ∨ (w = 0x02#8 ∧ decodeCommand m w = .ok (processRow m)) ∨
    (w = 0x03#8 ∧ decodeCommand m w = .ok .ctrlTick) ∨
    (w ≠ 0x01#8 ∧ w ≠ 0x02#8 ∧ w ≠ 0x03#8 ∧ decodeCommand m w = .error (.reservedCommand w)) := by
  unfold decodeCommand
  by_cases h1 : w = 0x01#8
  · exact .inl ⟨h1, if_pos h1⟩
  by_cases h2 : w = 0x02#8
  · exact .inr (.inl ⟨h2, (if_neg h1).trans (if_pos h2)⟩)
  by_cases h3 : w = 0x03#8
  · exact .inr (.inr (.inl ⟨h3, (if_neg h1).trans ((if_neg h2).trans (if_pos h3))⟩))
  · exact .inr (.inr (.inr ⟨h1, h2, h3, (if_neg h1).trans ((if_neg h2).trans (if_neg h3))⟩))

/-- The events of a word latch the flags of its bits. -/
theorem execAll_decodeEvent (w : BitVec 2) (s : State) :
    execAll (decodeEvent w) s =
      .next { s with incPend := s.incPend || w.getLsbD 0, decPend := s.decPend || w.getLsbD 1 } := by
  unfold decodeEvent
  cases h0 : w.getLsbD 0 <;> cases h1 : w.getLsbD 1 <;> simp [execAll, exec, execEvInc, execEvDec, latchInc, latchDec]

/-- The step of an accepted command whose operation answers a next state: the operation between acceptance and
completion, and the events presented with it held. -/
theorem step_command {s v : State} {p : Pins} {i : Instr} {rest : List HostMove} (hs : s.shapeOk = true)
    (hb : s.busy = false) (hq : s.script = .present p :: rest) (hr : p.rst = false) (hv : p.cmdValid = true)
    (hd : decodeCommand s.mode p.cmd = .ok i)
    (hx : exec i { s with script := rest, done := false, busy := true } = .next v) :
    step s = .next (holdEvents p (completeCommand v)) := by
  rw [step_move hs hq]
  show runPins p _ = _
  unfold runPins
  rw [if_neg (by simp [hr]), if_pos hv, if_neg (by simp [hb])]
  simp only [hd]
  unfold runCommand acceptCommand
  rw [hx]; rfl

@[simp] theorem stepMany_zero (s : State) : stepMany 0 s = .next s := rfl

/-- One step and then the rest, when the first answers a next state. -/
theorem stepMany_succ {s t : State} (n : Nat) (h : step s = .next t) : stepMany (n + 1) s = stepMany n t := by
  simp [stepMany, h]

/-- Everything a step that answers a next state can have done. -/
inductive StepDid (s t : State) : Prop where
  | idle (h : s.script = []) (ht : t = idleStep s)
  | reset (p : Pins) (rest : List HostMove) (h : s.script = .present p :: rest) (hr : p.rst = true)
      (ht : t = applyReset { s with script := rest, done := false })
  | held (p : Pins) (rest : List HostMove) (h : s.script = .present p :: rest) (hr : p.rst = false)
      (hv : p.cmdValid = true) (hb : s.busy = true)
      (ht : t = { s with
        incPend := s.incPend || p.ev.getLsbD 0
        decPend := s.decPend || p.ev.getLsbD 1
        script := .present { p with ev := 0 } :: rest
        done := false })
  | command (p : Pins) (rest : List HostMove) (i : Instr) (u : State) (h : s.script = .present p :: rest)
      (hr : p.rst = false) (hv : p.cmdValid = true) (hb : s.busy = false) (hd : decodeCommand s.mode p.cmd = .ok i)
      (hx : exec i { s with script := rest, done := false, busy := true } = .next u)
      (ht : t = holdEvents p (completeCommand u))
  | events (p : Pins) (rest : List HostMove) (h : s.script = .present p :: rest) (hr : p.rst = false)
      (hv : p.cmdValid = false)
      (ht : t = { s with
        incPend := s.incPend || p.ev.getLsbD 0
        decPend := s.decPend || p.ev.getLsbD 1
        script := rest
        done := false })
  | load (vs : List Sample) (rest : List HostMove) (h : s.script = .load vs :: rest) (hb : s.busy = false)
      (hl : vs.length = s.cfg.blockLen) (ht : t = { s with inbuf := vs, script := rest, done := false })
  | read (rest : List HostMove) (h : s.script = .read :: rest) (hb : s.busy = false)
      (ht : t = { s with script := rest, done := false })
  | claimHeld (m : Mode) (rest : List HostMove) (h : s.script = .processAs m :: rest) (hb : s.busy = true)
      (ht : t = { s with done := false })
  | claim (m : Mode) (rest : List HostMove) (u : State) (h : s.script = .processAs m :: rest) (hb : s.busy = false)
      (hx : exec (processRow m) { s with script := rest, done := false, busy := true } = .next u)
      (ht : t = completeCommand u)

/-- The inversion of a step: one of the cases above. -/
theorem step_did {s t : State} (h : step s = .next t) : StepDid s t := by
  obtain ⟨hs, _⟩ := step_next_shaped h
  rcases hq : s.script with _ | ⟨m, rest⟩
  · rw [step_idle hs hq] at h; injection h with h; exact .idle hq h.symm
  rw [step_move hs hq] at h
  cases m with
  | present p =>
    replace h : runPins p { s with script := rest, done := false } = .next t := h
    unfold runPins at h
    by_cases hr : p.rst = true
    · rw [if_pos hr] at h; injection h with h; exact .reset p rest hq hr h.symm
    rw [if_neg hr] at h
    rw [Bool.not_eq_true] at hr
    by_cases hv : p.cmdValid = true
    · rw [if_pos hv] at h
      by_cases hb : s.busy = true
      · rw [if_pos hb, holdCommand, execAll_decodeEvent] at h
        injection h with h; exact .held p rest hq hr hv hb h.symm
      · rw [if_neg hb] at h
        rw [Bool.not_eq_true] at hb
        cases hd : decodeCommand s.mode p.cmd with
        | error e => cases e; simp only [hd] at h; cases h
        | ok i =>
          simp only [hd] at h
          obtain ⟨v, hv', ht⟩ := thenState_inv h
          obtain ⟨u, hu, hv''⟩ := thenState_inv hv'
          subst hv''
          exact .command p rest i u hq hr hv hb hd hu ht
    · rw [if_neg hv, execAll_decodeEvent] at h
      injection h with h; exact .events p rest hq hr (by simpa using hv) h.symm
  | load vs =>
    simp only [runMove, runLoad] at h
    split_ifs at h with hb hl
    injection h with h
    exact .load vs rest hq (by simpa using hb) hl h.symm
  | read =>
    simp only [runMove, runRead] at h
    split_ifs at h with hb
    injection h with h
    exact .read rest hq (by simpa using hb) h.symm
  | processAs m =>
    simp only [runMove, runProcessAs] at h
    split_ifs at h with hb
    · injection h with h
      refine .claimHeld m rest hq hb (h.symm.trans ?_)
      simp [holdMove, ← hq]
    · obtain ⟨u, hu, ht⟩ := thenState_inv h
      exact .claim m rest u hq (by simpa using hb) hu ht

end Sys2Proof.Machine
end

