-- ==== Sys2Proof/Tests/Slice0.lean ====
section
/-! SUPPORT. The author's tests: the well-formedness smoke tests, the words decoded bit by bit, one-step vectors of
spec/95_test_vectors.md (the expected values are that file's), and for every statement with hypotheses a state and
operands that meet them together. -/

open Sys2Proof Sys2Proof.Machine

namespace Sys2Proof.Tests

/-! ### Small states -/

/-- A block with a different word at every index. -/
def block : List Sample := [0x4000, 0x1111, 0x2000, 0x2222, 0xC000, 0x3333, 0xE000, 0x4444]

/-- The TESTCFG machine after reset, moved to mode `m`, with a script. -/
def atMode (m : Mode) (script : List HostMove) : State :=
  { State.resetOf Config.testcfg block (List.replicate 8 0x0BAD) with mode := m, ind := modeCode m, script := script }

/-- The same while a command runs; no run stops here (log 7). -/
def busyState (script : List HostMove) : State := { atMode .tone script with busy := true }

/-- The smallest configuration: one pair in a block, one tap, no look-back, one sine entry, one bit. -/
def tinyCfg : Config :=
  { Config.testcfg with
    blockLen := 2, nTaps := 1, delay := 0, sine := [5], shapeA := [-3], shapeB := [3], bits := [true], phaseW := 2,
    sineBits := 0, bitsLen := 1 }

/-- The next state, when there is one. -/
def nextOf (o : Host.Outcome State Fault Refusal) : Option State :=
  match o with
  | .next t => some t
  | .fault _ => none
  | .refused _ => none

/-- The reason a step was refused, when it was. -/
def refusalOf (o : Host.Outcome State Fault Refusal) : Option Refusal :=
  match o with
  | .next _ => none
  | .fault _ => none
  | .refused r => some r

/-- A command and events presented together. -/
def cmdAnd (w : BitVec 8) (e : BitVec 2) : Pins := { rst := false, cmdValid := true, cmd := w, ev := e }

/-! ### WellFormed: a term each check refuses -/

theorem test_wf_testcfg : Config.testcfg.wf = true ∧ Config.testcfgD6.wf = true ∧ tinyCfg.wf = true := by decide
theorem test_wf_refuses_an_odd_block : ({ tinyCfg with blockLen := 3 } : Config).wf = false := by decide
theorem test_wf_refuses_an_empty_block :
    ({ tinyCfg with blockLen := 0, shapeA := [], shapeB := [] } : Config).wf = false := by decide
theorem test_wf_refuses_no_taps : ({ tinyCfg with nTaps := 0 } : Config).wf = false := by decide
theorem test_wf_refuses_no_sample_rate : ({ tinyCfg with sampleRate := 0 } : Config).wf = false := by decide
theorem test_wf_refuses_a_one_bit_phase : ({ tinyCfg with phaseW := 1 } : Config).wf = false := by decide
theorem test_wf_refuses_more_index_bits_than_phase_bits :
    ({ tinyCfg with sineBits := 3, sine := List.replicate 8 0 } : Config).wf = false := by decide
theorem test_wf_refuses_a_sine_table_of_another_length : ({ tinyCfg with sine := [1, 2] } : Config).wf = false := by
  decide
theorem test_wf_refuses_a_short_shape_a : ({ tinyCfg with shapeA := [] } : Config).wf = false := by decide
theorem test_wf_refuses_a_long_shape_b : ({ tinyCfg with shapeB := [1, 2] } : Config).wf = false := by decide
theorem test_wf_refuses_bits_of_another_length : ({ tinyCfg with bits := [true, false] } : Config).wf = false := by
  decide
theorem test_wf_refuses_no_bits : ({ tinyCfg with bits := [], bitsLen := 0 } : Config).wf = false := by decide
theorem test_selector_refuses_another_mode :
    Instr.processNotch.selectedIn .tone = false ∧ Instr.processNotch.selectedIn .adaptiveNotch = true ∧
    Instr.ctrlTick.selectedIn .tone = true := by decide
theorem test_load_needs_a_value_per_word :
    (HostMove.load [1, 2]).wf Config.testcfg = false ∧ (HostMove.load block).wf Config.testcfg = true := by decide
theorem test_step_refuses_an_ill_formed_configuration :
    refusalOf (step { atMode .tone [] with cfg := { Config.testcfg with nTaps := 0 } }) = some .illFormedConfig := by decide
theorem test_step_refuses_an_ill_formed_state :
    refusalOf (step { atMode .tone [] with h := [1] }) = some .illFormedState := by decide

/-- The defaults of 00_scope.md R10: a configuration that names none of the four parameters. -/
def defaultCfg : Config where
  blockLen := 2
  nTaps := 1
  delay := 0
  mu := 0
  sine := [0]
  shapeA := [0]
  shapeB := [0]
  bits := [false]
  toneFreq := 0
  sampleRate := 1
  sineBits := 0
  bitsLen := 1
  hostByteOrder := .bigEndian

theorem test_r10_defaults :
    defaultCfg.wf = true ∧ defaultCfg.phaseW = 16 ∧ defaultCfg.qCoef = 0 ∧ defaultCfg.incOrder = .mulFirst ∧
    defaultCfg.mode2 = .tone := by decide

/-! ### Words, written out bit by bit from 30_encoding.md R97, R100, R106 -/

theorem test_decode_init : decode .tone (.cmd 0b00000001) = .ok [.init] := by decide
theorem test_decode_process_pass : decode .passThrough (.cmd 0b00000010) = .ok [.processPass] := by decide
theorem test_decode_process_notch : decode .adaptiveNotch (.cmd 0b00000010) = .ok [.processNotch] := by decide
theorem test_decode_process_tone : decode .tone (.cmd 0b00000010) = .ok [.processTone] := by decide
theorem test_decode_process_mod : decode .modulate (.cmd 0b00000010) = .ok [.processMod] := by decide
theorem test_decode_ctrl_tick : decode .tone (.cmd 0b00000011) = .ok [.ctrlTick] := by decide
theorem test_decode_ev_inc : decode .tone (.ev 0b01) = .ok [.evInc] := by decide
theorem test_decode_ev_dec : decode .tone (.ev 0b10) = .ok [.evDec] := by decide
theorem test_decode_ev_both_and_none :
    decode .tone (.ev 0b11) = .ok [.evInc, .evDec] ∧ decode .tone (.ev 0b00) = .ok [] := by decide
theorem test_decode_reads_all_eight_bits :
    decode .tone (.cmd 0b00000000) = .error (.reservedCommand 0) ∧
    decode .tone (.cmd 0b00000100) = .error (.reservedCommand 4) ∧
    decode .tone (.cmd 0b10000001) = .error (.reservedCommand 0x81) := by decide
/-- 30_encoding.md R111: (0 - 3) mod 4 is one step up; (1 - 2) mod 4 is three; ev = 11; PROCESS is the word 0x02. -/
theorem test_r111_expansions :
    expandPseudo (.gotoMode .modulate .passThrough) = [.present (pinsOf (.ev 1)), .present (pinsOf (.cmd 3))] ∧
    (expandPseudo (.gotoMode .tone .adaptiveNotch)).length = 6 ∧ expandPseudo (.gotoMode .tone .tone) = [] ∧
    expandPseudo .evBoth = [.present (pinsOf (.ev 3))] ∧
    expandPseudo .stepDown = [.present (pinsOf (.ev 2)), .present (pinsOf (.cmd 3))] ∧
    expandPseudo (.block [7]) = [.load [7], .present (pinsOf (.cmd 2)), .read] := by decide
theorem test_decode_table_words :
    decodeTableWord 8 1 = some .init ∧ decodeTableWord 8 2 = some .processPass ∧ decodeTableWord 8 3 = some .ctrlTick ∧
    decodeTableWord 2 1 = some .evInc ∧ decodeTableWord 2 2 = some .evDec ∧ decodeTableWord 8 0 = none := by decide
theorem test_fetch_word_runs_next :
    ((nextOf (step (State.reset.withFetchWord 2 1))).map fun t => t.incPend) = some true ∧
    ((nextOf (step (State.reset.withFetchWord 8 3))).map fun t => t.done) = some true := by decide

/-! ### One-step vectors of 95_test_vectors.md -/

/-- V1. -/
theorem test_v1_qmul32 :
    qmul32 0x2000 (-0x3000) = 0xF4000000 ∧ qmul32 (-1) 1 = -2 ∧ qmul32 0x8000 0x8000 = 0x7FFFFFFF := by decide
/-- V2. -/
theorem test_v2_add32 : add32 (-0x40000000) (-0x40000001) = 0x80000000 ∧ add32 5 (-7) = -2 := by decide
/-- V3. -/
theorem test_v3_narrow16 :
    narrow16 0xFFFF = 1 ∧ narrow16 (-65536) = -1 ∧ narrow16 (-98303) = -1 ∧ narrow16 (-98305) = -2 ∧
    narrow16 0x7FFF8000 = 0x7FFF := by decide
/-- V4. -/
theorem test_v4_sub16 : sub16 0x8000 0x8000 = 0 ∧ sub16 0x7FFF 0x8000 = 0x7FFF ∧ sub16 0x8000 0x7FFF = 0x8000 := by
  decide
/-- V10. -/
theorem test_v10_xl :
    ([0, 1, 2].map fun k => firXl Config.testcfg { h := [0, 0, 0], dl := [8192, 0, 16384], wc := 1 } k) =
      [8192, 16384, 0] ∧
    ([0, 1, 2].map fun k => firXl Config.testcfg { h := [0, 0, 0], dl := [8192, 0, 16384], wc := 0 } k) =
      [16384, 0, 8192] := by decide
/-- V11. -/
theorem test_v11_lms_step :
    lmsStep Config.testcfg 0x0100 0x0C00 { h := [0x4000, 0x2000, 0xF000], dl := [0x1000, 0x0800, 0xC000], wc := 1 } =
      (5376, { h := [16552, 7520, -4012], dl := [4096, 256, -16384], wc := 2 }) := by decide
/-- V12: the clamp after every addition makes the order matter. -/
theorem test_v12_order_of_additions :
    firPredict Config.testcfg { h := [32767, 32767, -32768], dl := [32767, 32767, 32767], wc := 0 } = 1 ∧
    firPredict Config.testcfg { h := [-32768, 32767, 32767], dl := [32767, 32767, 32767], wc := 0 } = 32765 := by decide
/-- V13. -/
theorem test_v13_negative_rail :
    lmsStep Config.testcfg 0 0 { h := [-32768, -32768, -32768], dl := [-32768, -32768, -32768], wc := 0 } =
      (-32767, { h := [-24576, -24576, -24576], dl := [0, -32768, -32768], wc := 1 }) := by decide
/-- V16. -/
theorem test_v16_tap_rounding :
    [tapUpdate 100 1 16384, tapUpdate 100 1 16383, tapUpdate 100 (-1) 16384, tapUpdate 100 (-1) 16385,
      tapUpdate 100 3 5461, tapUpdate 100 3 5462] = [101, 100, 100, 99, 100, 101] := by decide
/-- V34, blocks 1 to 2: the shift overlaps itself. -/
theorem test_v34_overlapping_shift :
    dlyUpdate Config.testcfgD6 [0x900, 0xA00, 0xB00, 0xC00]
        [0, 0, 0x100, 0x200, 0x300, 0x400, 0x500, 0x600, 0x700, 0x800] =
      [0x300, 0x400, 0x500, 0x600, 0x700, 0x800, 0x900, 0xA00, 0xB00, 0xC00] := by decide
/-- V40, V41: the first tick of the carrier, and the sixth, which is negative. -/
theorem test_v41_carrier :
    carrierTick Config.testcfg 0 = ((23170, 23170), 0x2999) ∧
    carrierTick Config.testcfg 0xCFFD = ((-12539, 30273), 0xF996) := by decide
/-- V44. -/
theorem test_v44_increment :
    phaseInc Config.testcfg = 10649 ∧ phaseInc { Config.testcfg with incOrder := .divFirst } = 10400 ∧
    phaseInc { Config.testcfg with toneFreq := 9300 } = 10649 := by decide
/-- V52, V53. -/
theorem test_v53_mix :
    modMix Config.testcfg (-23170) 0 (-30273) = 21406 ∧
    modMix { Config.testcfg with qCoef := 0x4000 } 32767 23170 23170 = 32767 ∧
    modMix { Config.testcfg with qCoef := 0x4000 } 0 (-32767) 0 = -16383 := by decide

/-- V67. -/
theorem test_v67_init :
    ((nextOf (exec .init { atMode .adaptiveNotch [] with
        h := [0xFCA8, 0x1357, 0x0368], dl := [0x4000, 0x2000, 0xE000], wc := 2, incPend := true, phase := 0xA664 })).map
      fun t => ((t.h, t.dl, t.wc), (t.mode, t.incPend, t.phase))) =
    some (([0, 0, 0], [0, 0, 0], 0), (.adaptiveNotch, true, 0xA664)) := by decide
/-- P1's PROCESS.PASS, by the word on the command port. -/
theorem test_p1_pass :
    ((nextOf (step { atMode .passThrough [presentInstr .processPass] with
        inbuf := [0x1234, 0xEDCC, 0x7FFF, 0x8000, 0x0000, 0x0001, 0xFFFF, 0x7ABC] })).map fun t => t.outbuf) =
    some [0x1234, 0xEDCC, 0x7FFF, 0x8000, 0x0000, 0x0001, 0xFFFF, 0x7ABC] := by decide
/-- P2, block 0. -/
theorem test_p2_notch :
    ((nextOf (exec .processNotch (atMode .adaptiveNotch []))).map fun t => ((t.outbuf, t.drbuf), (t.h, t.dl, t.wc))) =
    some (([0x4000, 0x4000, 0x2000, 0x2000, 0xC000, 0xC000, 0xE000, 0xE000],
        [0, 0, 0x4000, 0x2000, 0xC000, 0xE000]), ([-1024, 0, 0], [8192, 0, 16384], 1)) := by
  decide +kernel
/-- V74. -/
theorem test_v74_tone :
    ((nextOf (exec .processTone (atMode .tone []))).map fun t => (t.outbuf, t.phase)) =
    some ([0x5A82, 0x5A82, 0x7641, 0x7641, 0x30FB, 0x30FB, 0xA57E, 0xA57E], 0xA664) := by decide
/-- V75. -/
theorem test_v75_silence :
    ((nextOf (exec .processTone { atMode .tone [] with cfg := { Config.testcfg with mode2 := .silence } })).map
      fun t => (t.outbuf, t.phase)) = some ([0, 0, 0, 0, 0, 0, 0, 0], 0) := by decide
/-- P3, symbol 0: SHAPE_A, SIGN toggles. -/
theorem test_p3_mod_transition :
    ((nextOf (exec .processMod (atMode .modulate []))).map
      fun t => ((t.outbuf, t.phase), (t.sign, t.testOut, t.icoef, t.bitcur))) =
    some (([0x3FFF, 0x3FFF, 0x0000, 0x0000, 0x539E, 0x539E, 0x5A81, 0x5A81], 0xA664), (true, false, -32767, 1)) := by
  decide
/-- P3, symbol 3: the coefficient is held, SIGN stays, the cursor wraps. -/
theorem test_p3_mod_hold :
    ((nextOf (exec .processMod { atMode .modulate [] with phase := 0xF32C, bitcur := 3, icoef := 32767 })).map
      fun t => ((t.outbuf, t.phase), (t.sign, t.testOut, t.icoef, t.bitcur))) =
    some (([0x7640, 0x7640, 0x0000, 0x0000, 0xA57F, 0xA57F, 0x89C0, 0x89C0], 0x9990), (false, true, 32767, 0)) := by
  decide
/-- V61. -/
theorem test_v61_tick_wraps_up :
    ((nextOf (exec .ctrlTick { atMode .modulate [] with incPend := true })).map fun t => (t.mode, t.incPend, t.ind)) =
    some (.passThrough, false, 0) := by decide
/-- V62. -/
theorem test_v62_tick_wraps_down :
    ((nextOf (exec .ctrlTick { atMode .passThrough [] with decPend := true })).map fun t => (t.mode, t.decPend, t.ind)) =
    some (.modulate, false, 3) := by decide
/-- V65: an edge on a flag already set merges. -/
theorem test_v65_ev_inc :
    ((nextOf (exec .evInc { atMode .passThrough [] with incPend := true })).map fun t => (t.mode, t.incPend, t.decPend)) =
    some (.passThrough, true, false) := by decide
/-- V62, the event. -/
theorem test_v62_ev_dec :
    ((nextOf (exec .evDec (atMode .passThrough []))).map fun t => (t.mode, t.incPend, t.decPend)) =
    some (.passThrough, false, true) := by decide

/-! ### The hypotheses of each statement are met together; the name says of which -/

/-- Two engines with the same taps and the same samples by age at different cursors. -/
def engineA : FirCells := { h := [5, 6, 7], dl := [8192, 0, 16384], wc := 1 }
def engineB : FirCells := { h := [5, 6, 7], dl := [0, 16384, 8192], wc := 0 }
def engineLast : FirCells := { h := [5, 6, 7], dl := [0, 0, 0], wc := 2 }

/-- A tick presented while both flags are set, and a reset presented with a command and events while busy. -/
def tickState : State := { atMode .tone [presentInstr .ctrlTick] with incPend := true }
def dropState : State := { atMode .tone [presentInstr .ctrlTick] with decPend := true }
def resetState : State := { busyState [.present { cmdAnd 2 3 with rst := true }, .read] with incPend := true, wc := 2 }

theorem witness_DecodeAndEncodeAgree :
    Instr.processNotch.selectedIn .adaptiveNotch = true ∧
    decodeCommand .adaptiveNotch 2 = .ok .processNotch ∧ Instr.evDec.selectedIn .modulate = true := by decide

theorem witness_ReservedCommandWordsAreRefused :
    ((4 : BitVec 8) ≠ 1 ∧ (4 : BitVec 8) ≠ 2 ∧ (4 : BitVec 8) ≠ 3) ∧ (atMode .tone [.present (cmdAnd 4 0)]).Inv ∧
    (atMode .tone [.present (cmdAnd 4 0)]).script = .present (cmdAnd 4 0) :: [] ∧
    (cmdAnd 4 0).rst = false ∧ (cmdAnd 4 0).cmdValid = true ∧ (cmdAnd 0 3).cmd ≠ 1 ∧ (cmdAnd 255 3).cmd ≠ 3 := by decide

theorem witness_StepRunsTheDecodedInstruction_cmd :
    (atMode .modulate [presentInstr .processMod]).shapeOk = true ∧
    (atMode .modulate [presentInstr .processMod]).busy = false ∧
    (atMode .modulate [presentInstr .processMod]).script = .present (pinsOf (.cmd 2)) :: [] ∧
    decode (atMode .modulate [presentInstr .processMod]).mode (.cmd 2) = .ok [.processMod] := by decide

theorem witness_StepRunsTheDecodedInstruction_ev :
    (atMode .tone [presentInstr .evDec]).shapeOk = true ∧ (atMode .tone [presentInstr .evDec]).busy = false ∧
    (atMode .tone [presentInstr .evDec]).script = .present (pinsOf (.ev 2)) :: [] ∧
    decode (atMode .tone [presentInstr .evDec]).mode (.ev 2) = .ok [.evDec] := by decide

theorem witness_EventWordLatchesExactlyItsBits : ∀ e : BitVec 2,
    (busyState [.present (pinsOf (.ev e))]).shapeOk = true ∧ (pinsOf (.ev e)).rst = false ∧
    (pinsOf (.ev e)).cmdValid = false := by decide

theorem witness_ResetPutsEveryCellAtItsResetValue :
    resetState.shapeOk = true ∧ resetState.script = .present { cmdAnd 2 3 with rst := true } :: [.read] ∧
    resetState.busy = true := by decide

theorem witness_ResetStateMeetsTheInvariant :
    Config.testcfgD6.wf = true ∧ block.length = Config.testcfgD6.blockLen ∧
    tinyCfg.wf = true ∧ ([1, 2] : List Sample).length = tinyCfg.blockLen := by decide

theorem witness_CommandIsHeldWhileBusy :
    (busyState [.present (cmdAnd 2 3)]).shapeOk = true ∧ (busyState [.present (cmdAnd 2 3)]).busy = true ∧
    (busyState [.present (cmdAnd 2 3)]).script = .present (cmdAnd 2 3) :: [] ∧
    (cmdAnd 2 3).rst = false ∧ (cmdAnd 2 3).cmdValid = true := by decide

theorem witness_DoneIsPulsedExactlyAtCompletion :
    (∃ t, step tickState = .next t) ∧ tickState.commandNext = true ∧
    (∃ t, step (atMode .tone [.read]) = .next t) ∧ (atMode .tone [.read]).commandNext = false :=
  ⟨⟨_, rfl⟩, by decide, ⟨_, rfl⟩, by decide⟩

theorem witness_EventPresentedWithACommandIsKept_tick :
    (atMode .tone [.present (cmdAnd 3 2)]).shapeOk = true ∧ (atMode .tone [.present (cmdAnd 3 2)]).busy = false ∧
    (2 : BitVec 2) ≠ 0 ∧ decodeCommand (atMode .tone [.present (cmdAnd 3 2)]).mode 3 = .ok .ctrlTick ∧
    (atMode .tone [.present (cmdAnd 3 2)]).script =
      .present { rst := false, cmdValid := true, cmd := 3, ev := 2 } :: [] := by decide

theorem witness_EventPresentedWithACommandIsKept_process :
    (atMode .modulate [.present (cmdAnd 2 1)]).shapeOk = true ∧
    (atMode .modulate [.present (cmdAnd 2 1)]).busy = false ∧ (1 : BitVec 2) ≠ 0 ∧
    decodeCommand (atMode .modulate [.present (cmdAnd 2 1)]).mode 2 = .ok .processMod ∧ Instr.processMod ≠ .ctrlTick ∧
    (atMode .modulate [.present (cmdAnd 2 1)]).script =
      .present { rst := false, cmdValid := true, cmd := 2, ev := 1 } :: [] := by decide

theorem witness_PseudoMovesDoWhatTheyStandFor :
    (atMode .tone []).shapeOk = true ∧ (atMode .tone []).busy = false ∧ (atMode .tone []).incPend = false ∧
    (atMode .tone []).decPend = false ∧ block.length = (atMode .tone []).cfg.blockLen ∧
    (atMode .tone (expandPseudo .evBoth)).script = expandPseudo .evBoth ++ [] ∧
    (atMode .tone (expandPseudo .stepUp)).script = expandPseudo .stepUp ++ [] ∧
    (atMode .tone (expandPseudo .stepDown)).script = expandPseudo .stepDown ++ [] ∧
    (atMode .tone (expandPseudo (.block block))).script = expandPseudo (.block block) ++ [] ∧
    (atMode .tone (expandPseudo (.gotoMode .tone .adaptiveNotch))).script =
      expandPseudo (.gotoMode (atMode .tone []).mode .adaptiveNotch) ++ [] ∧
    (atMode .tone []).ind = modeCode (atMode .tone []).mode := by decide

theorem witness_ModeClaimIsCheckedByThePseudoMove :
    (atMode .tone [.processAs .tone]).shapeOk = true ∧ (atMode .tone [.processAs .tone]).busy = false ∧
    (atMode .tone [.processAs .tone]).script = .processAs .tone :: [] ∧
    (atMode .tone [.processAs .tone]).mode = .tone ∧ (atMode .tone [.processAs .modulate]).mode ≠ .modulate ∧
    (atMode .tone [.processAs .modulate]).script = .processAs .modulate :: [] := by decide

theorem witness_LoadWritesInbufAndReadChangesNothing :
    (atMode .tone [.load block]).shapeOk = true ∧ (atMode .tone [.load block]).busy = false ∧
    block.length = (atMode .tone [.load block]).cfg.blockLen ∧
    (block ++ [0]).length ≠ (atMode .tone [.load (block ++ [0])]).cfg.blockLen ∧
    (atMode .tone [.read]).script = .read :: [] := by decide

theorem witness_EveryStepKeepsTheInvariant : tickState.Inv ∧ ∃ t, step tickState = .next t := ⟨by decide, _, rfl⟩

theorem witness_EveryOperationCompletes :
    (atMode .modulate []).Inv ∧ (atMode .modulate [.read]).Inv ∧ (atMode .modulate [.present (cmdAnd 2 3)]).Inv ∧
    (atMode .modulate [.present (cmdAnd 3 0)]).Inv ∧ (atMode .modulate [resetMove]).Inv := by decide

theorem witness_OnlyTheScriptCanBeRefused :
    (atMode .tone [.present (cmdAnd 4 0)]).Inv ∧ (atMode .tone [.processAs .modulate]).Inv ∧
    (atMode .tone [.load []]).Inv ∧ (atMode .tone []).Inv := by decide

theorem witness_OnlyTheNamedOperationsWriteEachCell :
    (∃ t, exec .init (atMode .tone []) = .next t) ∧ (∃ t, exec .processPass (atMode .passThrough []) = .next t) ∧
    (∃ t, exec .processNotch (atMode .adaptiveNotch []) = .next t) ∧
    (∃ t, exec .processTone (atMode .tone []) = .next t) ∧ (∃ t, exec .processMod (atMode .modulate []) = .next t) ∧
    (∃ t, exec .ctrlTick tickState = .next t) ∧ (∃ t, exec .evInc (atMode .tone []) = .next t) ∧
    (∃ t, exec .evDec (atMode .tone []) = .next t) ∧
    (∃ t, exec .processTone { atMode .tone [] with cfg := { Config.testcfg with mode2 := .silence } } = .next t) :=
  ⟨⟨_, rfl⟩, ⟨_, rfl⟩, ⟨_, rfl⟩, ⟨_, rfl⟩, ⟨_, rfl⟩, ⟨_, rfl⟩, ⟨_, rfl⟩, ⟨_, rfl⟩, ⟨_, rfl⟩⟩

theorem witness_OnlyTickOrResetMovesModeOrClearsAFlag :
    (∃ t, step tickState = .next t ∧ t.mode ≠ tickState.mode ∧ t.ind ≠ tickState.ind ∧
      tickState.incPend = true ∧ t.incPend = false) ∧
    (∃ t, step dropState = .next t ∧ dropState.decPend = true ∧ t.decPend = false) ∧
    (∃ t, step resetState = .next t ∧ t.mode ≠ resetState.mode) :=
  ⟨⟨_, rfl, by decide, by decide, rfl, rfl⟩, ⟨_, rfl, rfl, rfl⟩, ⟨_, rfl, by decide⟩⟩

theorem witness_NoStepChangesTheConfiguration : ∃ t, step resetState = .next t := ⟨_, rfl⟩

theorem witness_NarrowingRoundsToNearestTiesUp :
    (0x7FFF7FFF : Acc).toInt < 0x7FFF8000 ∧ 0x7FFF8000 ≤ (0x7FFF8000 : Acc).toInt ∧
    (0x80000000 : Acc).toInt < 0x7FFF8000 ∧ 0x7FFF8000 ≤ (0x7FFFFFFF : Acc).toInt := by decide

theorem witness_EveryIndexLiesInsideItsSpace :
    Config.testcfg.wf = true ∧ 3 < Config.testcfg.n ∧ 1 < Config.testcfg.delay ∧ 2 < Config.testcfg.nTaps ∧
    65535 < Config.testcfg.fullTurn ∧ 3 < Config.testcfg.bitsLen := by decide

theorem witness_PushMakesTheNewSampleAgeZero :
    engineA.Fits Config.testcfg ∧ engineLast.Fits Config.testcfg ∧ engineLast.wc = Config.testcfg.nTaps - 1 ∧
    1 + 1 < Config.testcfg.nTaps := by decide

theorem witness_DelayLineHoldsTheMostRecentSamples :
    engineB.Fits Config.testcfg ∧ 2 < Config.testcfg.nTaps ∧ 1 < ([9, 8] : List Sample).length ∧
    ¬ 2 < ([9, 8] : List Sample).length := by decide

theorem witness_PredictionIsTheClampedConvolution : engineA.Fits Config.testcfg ∧ engineB.Fits Config.testcfg := by decide

theorem witness_UpdateMovesEveryTapByItsOwnProduct :
    engineA.Fits Config.testcfg ∧ 2 < Config.testcfg.nTaps ∧ firXl Config.testcfg engineA 2 = 0 ∧
    firXl Config.testcfg engineA 0 ≠ 0 := by decide

theorem witness_ScaledErrorIsTheProductRoundedOnce :
    Config.testcfg.mu.toInt * (2 : Sample).toInt = 16384 ∧
    ({ Config.testcfg with mu := 0x8000 } : Config).mu = 0x8000 := by decide

theorem witness_StepOfTheEnginePredictsBeforeItPushes :
    engineA.Fits Config.testcfg ∧ engineLast.Fits Config.testcfg ∧ engineLast.wc = Config.testcfg.nTaps - 1 ∧
    2 < Config.testcfg.nTaps := by decide

theorem witness_PredictionUsesOnlyEarlierInputs :
    engineA.Fits Config.testcfg ∧ engineLast.Fits Config.testcfg ∧ engineLast.LineZero Config.testcfg := by decide

theorem witness_ZeroInputLeavesTheDesiredSignal :
    engineLast.Fits Config.testcfg ∧ engineLast.LineZero Config.testcfg ∧
    engineA.Fits Config.testcfg ∧ Config.testcfg.nTaps ≤ ([1, 2, 3] : List Sample).length := by decide

theorem witness_EngineDependsOnAgesNotOnTheCursor :
    engineA.Fits Config.testcfg ∧ engineB.Fits Config.testcfg ∧ engineA.h = engineB.h ∧ engineA.dl ≠ engineB.dl ∧
    ∀ k, k < Config.testcfg.nTaps → firXl Config.testcfg engineA k = firXl Config.testcfg engineB k := by decide

theorem witness_ShiftMovesTheLookBackForward :
    Config.testcfgD6.wf = true ∧ (List.replicate 10 (7 : Sample)).length = Config.testcfgD6.drLen ∧
    tinyCfg.wf = true ∧ ([7] : List Sample).length = tinyCfg.drLen := by decide

theorem witness_LoadFillsTheCurrentWindow :
    (List.replicate 6 (7 : Sample)).length = Config.testcfg.drLen ∧ Config.testcfg.delay ≤ 2 ∧
    5 < Config.testcfg.drLen := by decide

theorem witness_SlidingWindowHoldsTheDelayedSamples :
    Config.testcfgD6.wf = true ∧
    (∀ b ∈ ([[1, 2, 3, 4], [5, 6, 7, 8]] : List (List Sample)), b.length = Config.testcfgD6.n) ∧
    ([9, 10, 11, 12] : List Sample).length = Config.testcfgD6.n ∧ 3 < Config.testcfgD6.n := by decide

theorem witness_PhaseAfterKAdvancesIsExact : 0 < Config.testcfg.fullTurn ∧ 65535 < Config.testcfg.fullTurn := by decide

theorem witness_PhaseRepeatsWithItsExactPeriod :
    65535 < Config.testcfg.fullTurn ∧
    Config.testcfg.fullTurn / Nat.gcd Config.testcfg.fullTurn (phaseInc Config.testcfg) ∣ 65536 := by decide +kernel

/-- TESTCFG under the other order, and the rule's second example. -/
def divFirstCfg : Config := { Config.testcfg with incOrder := .divFirst }
def audioCfg : Config := { Config.testcfg with sampleRate := 48000, toneFreq := 1000 }

theorem witness_IncrementIsTheTruncatedRatioAndAliases :
    Config.testcfg.wf = true ∧ Config.testcfg.incOrder = .mulFirst ∧
    10649 * Config.testcfg.sampleRate ≤ 2 ^ Config.testcfg.phaseW * Config.testcfg.toneFreq ∧
    2 ^ Config.testcfg.phaseW * Config.testcfg.toneFreq < (10649 + 1) * Config.testcfg.sampleRate ∧
    divFirstCfg.wf = true ∧ divFirstCfg.incOrder = .divFirst ∧ 8 * divFirstCfg.sampleRate ≤ 2 ^ divFirstCfg.phaseW ∧
    2 ^ divFirstCfg.phaseW < (8 + 1) * divFirstCfg.sampleRate := by decide

theorem witness_IncrementIsTheTruncatedRatioAndAliases_examples :
    Config.testcfg.phaseW = 16 ∧ Config.testcfg.sampleRate = 8000 ∧ Config.testcfg.toneFreq = 1300 ∧
    audioCfg.phaseW = 16 ∧ audioCfg.sampleRate = 48000 ∧ audioCfg.toneFreq = 1000 ∧ audioCfg.incOrder = .mulFirst ∧
    { audioCfg with incOrder := .divFirst }.incOrder = .divFirst := by decide

theorem witness_CarriersAreTableEntriesOfTheTopBits :
    Config.testcfg.wf = true ∧ 15 < 2 ^ Config.testcfg.sineBits ∧
    4095 < 2 ^ (Config.testcfg.phaseW - Config.testcfg.sineBits) ∧
    3 * 2 ^ (Config.testcfg.phaseW - 2) - 1 < Config.testcfg.fullTurn ∧
    3 * 2 ^ (Config.testcfg.phaseW - 2) < Config.testcfg.fullTurn := by decide

theorem witness_EventsComposeAdditivelyModuloFour :
    (atMode .tone []).incPend = false ∧ (atMode .tone []).decPend = false ∧
    edgesSpaced [.evInc, .ctrlTick, .evDec, .evInc, .ctrlTick] false false = true ∧
    edgesSpaced [.evDec, .ctrlTick, .evDec] false false = true := by decide

theorem witness_MergedEdgesMakeOneStep :
    (atMode .tone []).incPend = false ∧ (atMode .tone []).decPend = false ∧
    [Instr.init, .processTone].all Instr.ignoresEvents = true ∧
    ∃ t, execAll [.init, .processTone] (atMode .tone []) = .next t :=
  ⟨rfl, rfl, by decide, _, rfl⟩

theorem witness_InitZeroesTheEngineAndNothingElse :
    { atMode .tone [] with h := [1, 2, 3] }.h.length = (atMode .tone []).cfg.nTaps ∧
    (atMode .tone []).dl.length = (atMode .tone []).cfg.nTaps := by decide

theorem witness_ProcessRowOfAnotherModeIsRefused :
    Instr.processNotch.selector = some .adaptiveNotch ∧ (atMode .tone []).mode ≠ .adaptiveNotch := by decide

theorem witness_PassThroughCopiesTheBlock :
    (atMode .passThrough []).shapeOk = true ∧ (atMode .passThrough []).mode = .passThrough := by decide

theorem witness_NotchEmitsTheErrorOfTheLeftChannel :
    (atMode .adaptiveNotch []).shapeOk = true ∧ (atMode .adaptiveNotch []).mode = .adaptiveNotch ∧
    (atMode .adaptiveNotch []).cfg.delay < (atMode .adaptiveNotch []).cfg.drLen := by decide

theorem witness_ToneEmitsTheSineCarrier :
    (atMode .tone []).shapeOk = true ∧ (atMode .tone []).mode = .tone ∧ (atMode .tone []).cfg.mode2 = .tone := by decide

theorem witness_SilenceWritesZerosOnly :
    { atMode .tone [] with cfg := { Config.testcfg with mode2 := .silence } }.shapeOk = true ∧
    ({ Config.testcfg with mode2 := .silence } : Config).mode2 = .silence ∧ (atMode .tone []).mode = .tone := by decide

theorem witness_ModulatorEmitsOneSymbol :
    (atMode .modulate []).shapeOk = true ∧ (atMode .modulate []).mode = .modulate ∧
    (atMode .modulate []).nextBit = false ∧ { atMode .modulate [] with bitcur := 3 }.nextBit = true := by decide

theorem witness_NotchIgnoresTheRightChannel :
    (atMode .adaptiveNotch []).shapeOk = true ∧ (atMode .adaptiveNotch []).mode = .adaptiveNotch ∧
    ∀ j, j < (atMode .adaptiveNotch []).cfg.n →
      memRead [0x4000, 1, 0x2000, 2, 0xC000, 3, 0xE000, 4] (2 * j) = memRead (atMode .adaptiveNotch []).inbuf (2 * j) := by
  decide

theorem witness_ToneAndModulatorIgnoreTheInput :
    Instr.processTone.selectedIn (atMode .tone []).mode = true ∧
    Instr.processMod.selectedIn (atMode .modulate []).mode = true := by decide

/-- A machine in mode 1 whose step size is 0. -/
def zeroStepState : State := { atMode .adaptiveNotch [] with cfg := { Config.testcfg with mu := 0 } }

theorem witness_NotchWithZeroStepCopiesTheLeftChannel :
    zeroStepState.shapeOk = true ∧ zeroStepState.mode = .adaptiveNotch ∧ zeroStepState.cfg.mu = 0 ∧
    ∀ k, memRead zeroStepState.h k = 0 :=
  ⟨by decide, by decide, by decide, memRead_replicate_zero 3⟩

theorem witness_FirstNotchBlockStartsAsACopy :
    (atMode .adaptiveNotch []).shapeOk = true ∧ (atMode .adaptiveNotch []).mode = .adaptiveNotch ∧
    (∀ k, memRead (atMode .adaptiveNotch []).h k = 0) ∧ (∀ k, memRead (atMode .adaptiveNotch []).dl k = 0) ∧
    (∀ a, memRead (atMode .adaptiveNotch []).drbuf a = 0) ∧
    2 < (atMode .adaptiveNotch []).cfg.n ∧ 2 ≤ (atMode .adaptiveNotch []).cfg.delay :=
  ⟨by decide, by decide, memRead_replicate_zero 3, memRead_replicate_zero 3, memRead_replicate_zero 6, by decide,
    by decide⟩

theorem witness_SignAndCoefficientStayInAgreement :
    (atMode .modulate [presentInstr .processMod]).cfg.TablesEndRight ∧
    (atMode .modulate [presentInstr .processMod]).SignAgrees ∧
    ∃ t, step (atMode .modulate [presentInstr .processMod]) = .next t :=
  ⟨by decide, by decide, _, rfl⟩

theorem witness_SignTogglesOnTheTwoZeroBitsOfTheCycle :
    (atMode .modulate []).shapeOk = true ∧ (atMode .modulate []).mode = .modulate ∧
    (atMode .modulate []).cfg.bits = [false, false, true, true] ∧ (atMode .modulate []).bitcur = 0 ∧
    (atMode .modulate []).sign = false := by decide

end Sys2Proof.Tests
end

/-! The arithmetic primitives (00_scope.md R16 to R22): when each clamps, and the obligations that say what each computes. -/

namespace Sys2Proof.Proofs

open Sys2Proof Sys2Proof.Machine

/-! ### The two clamps -/

theorem sat16_eq_max_min (v : Int) : sat16 v = max (-32768) (min 32767 v) := by
  unfold sat16; split_ifs <;> omega

theorem sat32_eq_max_min (v : Int) : sat32 v = max (-2147483648) (min 2147483647 v) := by
  unfold sat32; split_ifs <;> omega

theorem sat32_eq_self_iff (v : Int) : sat32 v = v ↔ -2147483648 ≤ v ∧ v ≤ 2147483647 :=
  ⟨fun h => h ▸ sat32_range v, fun ⟨h₁, h₂⟩ => sat32_of_range v h₁ h₂⟩

/-! ### The product -/

theorem abs_sample_le (a : Sample) : |a.toInt| ≤ 32768 := by
  obtain ⟨hlo, hhi⟩ := sample_range a
  exact abs_le.2 ⟨hlo, by omega⟩

/-- 0x8000 is the only Sample of magnitude 32768: the range has no 32768 above. -/
theorem abs_sample_le_of_ne_min {a : Sample} (h : a ≠ 0x8000) : |a.toInt| ≤ 32767 := by
  obtain ⟨hlo, hhi⟩ := sample_range a
  have hne : a.toInt ≠ -32768 := fun ha => h (BitVec.eq_of_toInt_eq (ha.trans (by decide)))
  exact abs_le.2 ⟨by omega, hhi⟩

theorem abs_mul_sample_le_of_ne_min {a : Sample} (h : a ≠ 0x8000) (b : Sample) :
    |a.toInt * b.toInt| ≤ 32767 * 32768 := by
  rw [abs_mul]
  exact mul_le_mul (abs_sample_le_of_ne_min h) (abs_sample_le b) (abs_nonneg _) (by norm_num)

/-- One operand other than 0x8000 is enough for the doubled product to stay inside 32 bits. -/
theorem qmul32_exact_of_ne_min {a b : Sample} (h : a ≠ 0x8000 ∨ b ≠ 0x8000) :
    (qmul32 a b).toInt = 2 * a.toInt * b.toInt := by
  have hab : |a.toInt * b.toInt| ≤ 32767 * 32768 := by
    rcases h with ha | hb
    · exact abs_mul_sample_le_of_ne_min ha b
    · rw [mul_comm]
      exact abs_mul_sample_le_of_ne_min hb a
  obtain ⟨hlo, hhi⟩ := abs_le.1 hab
  rw [qmul32_toInt, sat32_eq_self_iff, mul_assoc]
  constructor <;> omega

theorem qmul32_exact_iff (a b : Sample) :
    (qmul32 a b).toInt = 2 * a.toInt * b.toInt ↔ ¬(a = 0x8000 ∧ b = 0x8000) := by
  constructor
  · rintro hexact ⟨rfl, rfl⟩
    exact absurd hexact (by decide)
  · exact fun h => qmul32_exact_of_ne_min (not_and_or.1 h)

/-- Settles O20: `qmul32` clamps only where the doubled product leaves the 32-bit range, at 0x8000 times 0x8000. -/
theorem productIsExactButForMinusOneSquared : Obligations.ProductIsExactButForMinusOneSquared :=
  ⟨qmul32_toInt, qmul32_exact_iff, by decide⟩

/-! ### Narrowing and widening -/

/-- Below 0x7FFF8000 nothing is clamped: no accumulator is small enough to reach the lower clamp. -/
theorem narrow16_toInt_of_lt {acc : Acc} (h : acc.toInt < 0x7FFF8000) :
    (narrow16 acc).toInt = (acc.toInt + 32768) / 65536 := by
  obtain ⟨hlo, -⟩ := acc_range acc
  rw [narrow16_toInt]
  exact sat16_of_range _ (by omega) (by omega)

theorem narrow16_toInt_of_ge {acc : Acc} (h : 0x7FFF8000 ≤ acc.toInt) : (narrow16 acc).toInt = 32767 := by
  rw [narrow16_toInt, sat16_eq_max_min]
  omega

/-- The floor of `(acc + 32768) / 65536` is the nearest integer to `acc / 65536`, a tie going up. -/
theorem narrow16_nearest {acc : Acc} (h : acc.toInt < 0x7FFF8000) :
    65536 * (narrow16 acc).toInt - 32768 ≤ acc.toInt ∧ acc.toInt < 65536 * (narrow16 acc).toInt + 32768 := by
  rw [narrow16_toInt_of_lt h]
  constructor <;> omega

/-- Settles O22, by cases on whether the accumulator is below the clamp's boundary 0x7FFF8000. -/
theorem narrowingRoundsToNearestTiesUp : Obligations.NarrowingRoundsToNearestTiesUp :=
  ⟨fun _ => narrow16_nearest, fun _ => narrow16_toInt_of_ge, by decide⟩

/-- A widened Sample is at most 32767 * 65536, below the clamp's boundary, and a multiple of 65536. -/
theorem narrow16_ext32 (h : Sample) : narrow16 (ext32 h) = h := by
  obtain ⟨-, hhi⟩ := sample_range h
  have hval := ext32_toInt h
  apply BitVec.eq_of_toInt_eq
  rw [narrow16_toInt_of_lt (by omega)]
  omega

/-- Settles O23, by the value of `ext32` and the unclamped case of `narrow16`. -/
theorem wideningIsExactAndNarrowingUndoesIt : Obligations.WideningIsExactAndNarrowingUndoesIt :=
  fun h => ⟨ext32_toInt h, narrow16_ext32 h⟩

/-! ### Sum and difference -/

theorem add32_toInt_eq_max_min (p q : Acc) :
    (add32 p q).toInt = max (-2147483648) (min 2147483647 (p.toInt + q.toInt)) := by
  rw [add32_toInt, sat32_eq_max_min]

/-- The left grouping clamps at the top and then loses 1; the right one adds 0 and never clamps. -/
theorem add32_not_assoc : ∃ p q r : Acc, add32 (add32 p q) r ≠ add32 p (add32 q r) :=
  ⟨0x7FFFFFFF, 1, -1, by decide⟩

/-- Settles O21: the clamp of `add32` as a maximum of a minimum, and three operands that do not regroup. -/
theorem accumulateClampsAtEveryAddition : Obligations.AccumulateClampsAtEveryAddition :=
  ⟨add32_toInt_eq_max_min, add32_not_assoc, by decide⟩

theorem sub16_toInt_eq_max_min (a b : Sample) :
    (sub16 a b).toInt = max (-32768) (min 32767 (a.toInt - b.toInt)) := by
  rw [sub16_toInt, sat16_eq_max_min]

/-- Settles O24: the clamp of `sub16` as a maximum of a minimum. -/
theorem differenceClampsToASample : Obligations.DifferenceClampsToASample :=
  ⟨sub16_toInt_eq_max_min, by decide⟩

end Sys2Proof.Proofs

/-! The state chapter (10_state.md): what each operation can write, said once, and what follows for every step. The
invariant of R52, the writers of each cell (R54), the constancy of the configuration (R44), and the delay line as a
history read by age (R39). -/

namespace Sys2Proof.Proofs

open Sys2Proof Sys2Proof.Machine

/-! ### What each operation can write -/

/-- INIT's loop over a space changes no length. -/
theorem loopUp_memWrite_zero_length (n : Nat) (sp : List Sample) :
    (loopUp n (fun k b => memWrite b k 0) sp).length = sp.length :=
  loopUp_rule (fun _ b => b.length = sp.length) n _ sp rfl fun _ b _ hb => by simpa using hb

/-- The modulator's two index cells lie in their ranges (10_state.md R41, R43). -/
structure ModInRange (c : Config) (m : ModCells) : Prop where
  phase : m.phase < c.fullTurn
  bitcur : m.bitcur < c.bitsLen

/-- One symbol keeps the ranges: every advance wraps at a full turn, and the cursor at the end of BITS. -/
theorem modBlock_inRange {c : Config} {m : ModCells} (hm : ModInRange c m) : ModInRange c (modBlock c m).2 := by
  rw [modBlock_eq]
  refine loopCollect_state_rule (ModInRange c) c.n _ _ ?start fun k b _ hb => ?sample
  case start => exact ⟨hm.phase, nextCursor_lt _ _ (Nat.zero_lt_of_lt hm.bitcur)⟩
  case sample => exact ⟨phaseAdv_lt c b.phase, hb.bitcur⟩

/-- One block of the carrier keeps PHASE below a full turn. -/
theorem pipeSine_phase_lt (lin rin : List Sample) {s : State} (hp : s.phase < s.cfg.fullTurn) :
    (pipeSine lin rin s).2.phase < s.cfg.fullTurn :=
  loopCollect_state_rule (fun q => q < s.cfg.fullTurn) s.cfg.n _ s.phase hp fun _ b _ _ => phaseAdv_lt s.cfg b

/-- A control tick keeps IND showing MODE: IND is refreshed when a flag was consumed, and MODE stays when none was. -/
theorem ctrlTick_ind {s : State} (hi : s.ind = modeCode s.mode) : (ctrlTick s).ind = modeCode (ctrlTick s).mode := by
  unfold ctrlTick
  rw [consumeInc_spec]
  simp only [consumeDec_spec]
  split
  · rfl
  · next hnone =>
    obtain ⟨hinc, hdec⟩ : s.incPend = false ∧ s.decPend = false := by simpa using hnone
    simpa [hinc, hdec] using hi

/-- All that an operation which answers a next state can have done: the cells named in its row of 10_state.md R54 hold
new contents of the same shape, and every other cell is as it was. -/
inductive ExecDid (s t : State) : Instr → Prop where
  | init (h dl : List Sample) (hh : h.length = s.h.length) (hdl : dl.length = s.dl.length)
      (ht : t = { s with h := h, dl := dl, wc := 0 }) : ExecDid s t .init
  | pass (out : List Sample) (hout : out.length = s.outbuf.length) (ht : t = { s with outbuf := out }) :
      ExecDid s t .processPass
  | notch (f : FirCells) (dr out : List Sample) (hf : s.firCells.Fits s.cfg → f.Fits s.cfg)
      (hdr : dr.length = s.drbuf.length) (hout : out.length = s.outbuf.length)
      (ht : t = { s.withFir f with drbuf := dr, outbuf := out }) : ExecDid s t .processNotch
  | tone (p : Nat) (out : List Sample) (hm2 : s.cfg.mode2 = .tone)
      (hp : s.phase < s.cfg.fullTurn → p < s.cfg.fullTurn) (hout : out.length = s.outbuf.length)
      (ht : t = { s with phase := p, outbuf := out }) : ExecDid s t .processTone
  | silence (out : List Sample) (hm2 : s.cfg.mode2 = .silence) (hout : out.length = s.outbuf.length)
      (ht : t = { s with outbuf := out }) : ExecDid s t .processTone
  | mod (m : ModCells) (out : List Sample) (hm : ModInRange s.cfg s.modCells → ModInRange s.cfg m)
      (hout : out.length = s.outbuf.length) (ht : t = { s.withMod m with outbuf := out }) : ExecDid s t .processMod
  | tick (m : Mode) (j : BitVec 2) (hj : s.ind = modeCode s.mode → j = modeCode m)
      (ht : t = { s with incPend := false, decPend := false, mode := m, ind := j }) : ExecDid s t .ctrlTick
  | evInc (ht : t = { s with incPend := true }) : ExecDid s t .evInc
  | evDec (ht : t = { s with decPend := true }) : ExecDid s t .evDec

/-- The inversion of one operation: its row of `ExecDid`. -/
theorem exec_did {i : Instr} {s t : State} (h : exec i s = .next t) : ExecDid s t i := by
  cases i with
  | init =>
    obtain rfl : _ = t := Host.Outcome.next.inj h
    exact .init _ _ (loopUp_memWrite_zero_length _ _) (loopUp_memWrite_zero_length _ _) rfl
  | processPass =>
    obtain ⟨-, ht⟩ := whenMode_next h
    exact .pass _ (reint_length _ _ _ _) ht
  | processNotch =>
    obtain ⟨-, ht⟩ := whenMode_next h
    exact .notch _ _ _ (lmsBlock_fits _ _) (dlyUpdate_length _ _ _) (reint_length _ _ _ _) ht
  | processTone =>
    obtain ⟨-, ht⟩ := whenMode_next h
    unfold processBlock pipeTone at ht
    cases hm2 : s.cfg.mode2 with
    | tone =>
      rw [hm2] at ht
      have hphase := pipeSine_phase_lt (deintLeft s.cfg s.inbuf) (deintRight s.cfg s.inbuf) (s := s)
      exact .tone _ _ hm2 hphase (reint_length _ _ _ _) ht
    | silence =>
      rw [hm2] at ht
      exact .silence _ hm2 (reint_length _ _ _ _) ht
  | processMod =>
    obtain ⟨-, ht⟩ := whenMode_next h
    exact .mod _ _ modBlock_inRange (reint_length _ _ _ _) ht
  | ctrlTick =>
    obtain rfl : _ = t := Host.Outcome.next.inj h
    obtain ⟨m, j, he⟩ := ctrlTick_writes s
    exact .tick m j (fun hi => by simpa [he] using ctrlTick_ind hi) he
  | evInc => exact .evInc (Host.Outcome.next.inj h).symm
  | evDec => exact .evDec (Host.Outcome.next.inj h).symm

/-- Settles O17, by the rows of `ExecDid`. -/
theorem onlyTheNamedOperationsWriteEachCell : Obligations.OnlyTheNamedOperationsWriteEachCell := by
  unfold Obligations.OnlyTheNamedOperationsWriteEachCell
  intro i s t h
  cases exec_did h with
  | init _ _ _ _ ht => simp [ht, State.SameHostSide]
  | pass _ _ ht => simp [ht, State.SameHostSide, Instr.isProcess, Instr.selector]
  | notch _ _ _ _ _ _ ht => simp [ht, State.SameHostSide, Instr.isProcess, Instr.selector]
  | tone _ _ hm2 _ _ ht => simp [ht, hm2, State.SameHostSide, Instr.isProcess, Instr.selector]
  | silence _ _ _ ht => simp [ht, State.SameHostSide, Instr.isProcess, Instr.selector]
  | mod _ _ _ _ ht => simp [ht, State.SameHostSide, Instr.isProcess, Instr.selector]
  | tick _ _ _ ht => simp [ht, State.SameHostSide]
  | evInc ht => simp [ht, State.SameHostSide]
  | evDec ht => simp [ht, State.SameHostSide]

theorem exec_cfg {i : Instr} {s t : State} (h : exec i s = .next t) : t.cfg = s.cfg := by
  obtain ⟨⟨hcfg, -⟩, -⟩ := onlyTheNamedOperationsWriteEachCell i s t h
  exact hcfg

/-- MODE and IND are as before and no pending flag fell. -/
structure KeepsModeAndFlags (s t : State) : Prop where
  mode : t.mode = s.mode
  ind : t.ind = s.ind
  incPend : s.incPend = true → t.incPend = true
  decPend : s.decPend = true → t.decPend = true

theorem exec_keepsModeAndFlags {i : Instr} {s t : State} (hi : i ≠ .ctrlTick) (h : exec i s = .next t) :
    KeepsModeAndFlags s t := by
  cases exec_did h with
  | tick => exact absurd rfl hi
  | evInc ht => subst ht; exact ⟨rfl, rfl, fun _ => rfl, id⟩
  | evDec ht => subst ht; exact ⟨rfl, rfl, id, fun _ => rfl⟩
  | init _ _ _ _ ht => subst ht; exact ⟨rfl, rfl, id, id⟩
  | pass _ _ ht => subst ht; exact ⟨rfl, rfl, id, id⟩
  | notch _ _ _ _ _ _ ht => subst ht; exact ⟨rfl, rfl, id, id⟩
  | tone _ _ _ _ _ ht => subst ht; exact ⟨rfl, rfl, id, id⟩
  | silence _ _ _ ht => subst ht; exact ⟨rfl, rfl, id, id⟩
  | mod _ _ _ _ ht => subst ht; exact ⟨rfl, rfl, id, id⟩

/-! ### The invariant -/

/-- A well-formed configuration has a tap and a bit, so the cursors' reset value 0 is in range (70_reset_and_hazards.md
R290). -/
theorem resetOf_inv {c : Config} {inb outb : List Sample} (hc : c.wf = true) (hin : inb.length = c.blockLen)
    (hout : outb.length = c.blockLen) : (State.resetOf c inb outb).Inv := by
  obtain ⟨-, -, htaps, -, -, -, -, -, -, -, hbits⟩ := (Config.wf_iff c).1 hc
  refine ⟨(State.shapeOk_iff _).2 ?_, rfl, rfl⟩
  exact ⟨hc, List.length_replicate, List.length_replicate, htaps, List.length_replicate, fullTurn_pos c, hbits, hin,
    hout⟩

/-- Settles O7: the general case, and TESTCFG, which is well formed. -/
theorem resetStateMeetsTheInvariant : Obligations.ResetStateMeetsTheInvariant :=
  ⟨resetOf_inv (by decide) (by simp) (by simp), fun _ _ _ => resetOf_inv⟩

theorem exec_shapeOk {i : Instr} {s t : State} (hs : s.shapeOk = true) (h : exec i s = .next t) :
    t.shapeOk = true := by
  obtain ⟨hwf, hh, hdl, hwc, hdr, hph, hbc, hin, hout⟩ := (State.shapeOk_iff s).1 hs
  cases exec_did h with
  | init _ _ hh' hdl' ht =>
    subst ht
    exact (State.shapeOk_iff _).2
      ⟨hwf, hh'.trans hh, hdl'.trans hdl, Nat.zero_lt_of_lt hwc, hdr, hph, hbc, hin, hout⟩
  | pass _ hout' ht =>
    subst ht
    exact (State.shapeOk_iff _).2 ⟨hwf, hh, hdl, hwc, hdr, hph, hbc, hin, hout'.trans hout⟩
  | notch _ _ _ hf hdr' hout' ht =>
    subst ht
    obtain ⟨hh', hdl', hwc'⟩ := hf ⟨hh, hdl, hwc⟩
    exact (State.shapeOk_iff _).2 ⟨hwf, hh', hdl', hwc', hdr'.trans hdr, hph, hbc, hin, hout'.trans hout⟩
  | tone _ _ _ hp hout' ht =>
    subst ht
    exact (State.shapeOk_iff _).2 ⟨hwf, hh, hdl, hwc, hdr, hp hph, hbc, hin, hout'.trans hout⟩
  | silence _ _ hout' ht =>
    subst ht
    exact (State.shapeOk_iff _).2 ⟨hwf, hh, hdl, hwc, hdr, hph, hbc, hin, hout'.trans hout⟩
  | mod _ _ hm hout' ht =>
    subst ht
    obtain ⟨hph', hbc'⟩ := hm ⟨hph, hbc⟩
    exact (State.shapeOk_iff _).2 ⟨hwf, hh, hdl, hwc, hdr, hph', hbc', hin, hout'.trans hout⟩
  | tick _ _ _ ht => subst ht; exact hs
  | evInc ht => subst ht; exact hs
  | evDec ht => subst ht; exact hs

theorem exec_ind {i : Instr} {s t : State} (hi : s.ind = modeCode s.mode) (h : exec i s = .next t) :
    t.ind = modeCode t.mode := by
  by_cases htick : i = .ctrlTick
  · subst htick
    cases exec_did h with
    | tick _ _ hj ht => subst ht; exact hj hi
  · obtain ⟨hmode, hind, -, -⟩ := exec_keepsModeAndFlags htick h
    rw [hind, hmode, hi]

/-- An accepted command, from acceptance to completion, keeps the invariant: BUSY is down again at its end. -/
theorem completeCommand_inv {i : Instr} {s u : State} {rest : List HostMove} (hs : s.Inv)
    (hx : exec i { s with script := rest, done := false, busy := true } = .next u) : (completeCommand u).Inv := by
  obtain ⟨hshape, hind, -⟩ := hs
  have hushape : u.shapeOk = true := exec_shapeOk (by exact hshape) hx
  have huind : u.ind = modeCode u.mode := exec_ind (by exact hind) hx
  exact ⟨hushape, huind, rfl⟩

/-- Holding the events of a presentation writes the script only. -/
theorem holdEvents_eq (p : Pins) (s : State) :
    holdEvents p s =
      { s with script := if p.ev = 0 then s.script else .present (eventsOnly p) :: s.script } := by
  unfold holdEvents holdMove
  split <;> rfl

/-- Settles O14, by the cases of a step. -/
theorem everyStepKeepsTheInvariant : Obligations.EveryStepKeepsTheInvariant := by
  unfold Obligations.EveryStepKeepsTheInvariant
  intro s t hs hstep
  have ⟨hshape, hind, hbusy⟩ := hs
  obtain ⟨hwf, hh, hdl, hwc, hdr, hph, hbc, hin, hout⟩ := (State.shapeOk_iff s).1 hshape
  cases step_did hstep with
  | idle _ ht => subst ht; exact hs
  | reset _ _ _ _ ht => subst ht; exact resetOf_inv hwf hin hout
  | held _ _ _ _ _ hb _ => exact absurd hb (by simp [hbusy])
  | command _ _ _ _ _ _ _ _ _ hx ht => rw [ht, holdEvents_eq]; exact (completeCommand_inv hs hx :)
  | events _ _ _ _ _ ht => subst ht; exact hs
  | load _ _ _ _ hlen ht =>
    subst ht
    exact ⟨(State.shapeOk_iff _).2 ⟨hwf, hh, hdl, hwc, hdr, hph, hbc, hlen, hout⟩, hind, hbusy⟩
  | read _ _ _ ht => subst ht; exact hs
  | claimHeld _ _ _ hb _ => exact absurd hb (by simp [hbusy])
  | claim _ _ _ _ _ hx ht => subst ht; exact completeCommand_inv hs hx

/-! ### What no step changes, and what only a tick or reset does -/

/-- Settles O19, by the cases of a step. -/
theorem noStepChangesTheConfiguration : Obligations.NoStepChangesTheConfiguration := by
  unfold Obligations.NoStepChangesTheConfiguration
  intro s t hstep
  cases step_did hstep with
  | command _ _ _ _ _ _ _ _ _ hx ht => rw [ht, holdEvents_eq]; exact (exec_cfg hx :)
  | claim _ _ _ _ _ hx ht => rw [ht]; exact (exec_cfg hx :)
  | idle _ ht => rw [ht]; rfl
  | reset _ _ _ _ ht => rw [ht]; rfl
  | held _ _ _ _ _ _ ht => rw [ht]
  | events _ _ _ _ _ ht => rw [ht]
  | load _ _ _ _ _ ht => rw [ht]
  | read _ _ _ ht => rw [ht]
  | claimHeld _ _ _ _ ht => rw [ht]

theorem processRow_ne_ctrlTick (m : Mode) : processRow m ≠ .ctrlTick := by
  cases m <;> decide

/-- Only the word 0x03 is a control tick. -/
theorem eq_three_of_decodeCommand_ctrlTick {m : Mode} {w : BitVec 8} (h : decodeCommand m w = .ok .ctrlTick) :
    w = 0x03#8 := by
  rcases decodeCommand_cases m w with ⟨-, he⟩ | ⟨-, he⟩ | ⟨hw, -⟩ | ⟨-, -, -, he⟩
  · rw [he] at h; cases h
  · rw [he] at h; exact absurd (Except.ok.inj h) (processRow_ne_ctrlTick m)
  · exact hw
  · rw [he] at h; cases h

/-- Events latch by or, so no flag falls. -/
theorem latchBits_keepsModeAndFlags (s : State) (e : BitVec 2) (script : List HostMove) :
    KeepsModeAndFlags s { s with
      incPend := s.incPend || e.getLsbD 0
      decPend := s.decPend || e.getLsbD 1
      script := script
      done := false } :=
  ⟨rfl, rfl, fun h => by simp [h], fun h => by simp [h]⟩

/-- Every step is an accepted CTRL_TICK, a reset, or leaves MODE, IND and the set flags alone. -/
theorem step_tick_or_reset_or_keeps {s t : State} (h : step s = .next t) :
    s.tickNext = true ∨ s.resetNext = true ∨ KeepsModeAndFlags s t := by
  cases step_did h with
  | reset p rest hq hr _ => exact .inr (.inl (by simp [State.resetNext, hq, hr]))
  | command p rest i u hq hr hv hb hd hx ht =>
    by_cases hi : i = .ctrlTick
    · subst hi
      have hw := eq_three_of_decodeCommand_ctrlTick hd
      exact .inl (by simp [State.tickNext, hq, hr, hv, hb, hw])
    · obtain ⟨hmode, hind, hinc, hdec⟩ := exec_keepsModeAndFlags hi hx
      rw [ht, holdEvents_eq]
      exact .inr (.inr ⟨hmode, hind, hinc, hdec⟩)
  | claim m rest u hq hb hx ht =>
    obtain ⟨hmode, hind, hinc, hdec⟩ := exec_keepsModeAndFlags (processRow_ne_ctrlTick m) hx
    subst ht
    exact .inr (.inr ⟨hmode, hind, hinc, hdec⟩)
  | held _ _ _ _ _ _ ht => subst ht; exact .inr (.inr (latchBits_keepsModeAndFlags _ _ _))
  | events _ _ _ _ _ ht => subst ht; exact .inr (.inr (latchBits_keepsModeAndFlags _ _ _))
  | idle _ ht => subst ht; exact .inr (.inr ⟨rfl, rfl, id, id⟩)
  | load _ _ _ _ _ ht => subst ht; exact .inr (.inr ⟨rfl, rfl, id, id⟩)
  | read _ _ _ ht => subst ht; exact .inr (.inr ⟨rfl, rfl, id, id⟩)
  | claimHeld _ _ _ _ ht => subst ht; exact .inr (.inr ⟨rfl, rfl, id, id⟩)

/-- Settles O18: a step that keeps MODE, IND and the set flags makes none of the four changes. -/
theorem onlyTickOrResetMovesModeOrClearsAFlag : Obligations.OnlyTickOrResetMovesModeOrClearsAFlag := by
  unfold Obligations.OnlyTickOrResetMovesModeOrClearsAFlag
  intro s t hstep hchange
  rcases step_tick_or_reset_or_keeps hstep with htick | hreset | ⟨hmode, hind, hinc, hdec⟩
  · exact .inl htick
  · exact .inr hreset
  · rcases hchange with hm | hi | ⟨hset, hclear⟩ | ⟨hset, hclear⟩
    · exact absurd hmode hm
    · exact absurd hind hi
    · simp [hinc hset] at hclear
    · simp [hdec hset] at hclear

/-! ### The delay line read by age -/

/-- The cell of age `k` without a remainder: behind the cursor, or behind it around the end. -/
theorem ageIndex_eq_ite {n wc k : Nat} (hwc : wc < n) (hk : k < n) :
    ageIndex n wc k = if k < wc then wc - 1 - k else wc + n - 1 - k := by
  rw [ageIndex_eq n wc k hk]
  split_ifs with h
  · rw [show wc + n - 1 - k = wc - 1 - k + n by omega, Nat.add_mod_right, Nat.mod_eq_of_lt (by omega)]
  · exact Nat.mod_eq_of_lt (by omega)

theorem nextCursor_eq_ite {n wc : Nat} (hwc : wc < n) :
    nextCursor wc n = if wc + 1 = n then 0 else wc + 1 := by
  unfold nextCursor
  split_ifs with h
  · rw [h, Nat.mod_self]
  · exact Nat.mod_eq_of_lt (by omega)

/-- After a push the cell just written is the youngest. -/
theorem ageIndex_nextCursor_zero {n wc : Nat} (hwc : wc < n) : ageIndex n (nextCursor wc n) 0 = wc := by
  have hpos : 0 < n := Nat.zero_lt_of_lt hwc
  rw [ageIndex_eq_ite (nextCursor_lt _ _ hpos) hpos, nextCursor_eq_ite hwc]
  split_ifs <;> omega

/-- After a push every cell is one older. -/
theorem ageIndex_nextCursor_succ {n wc k : Nat} (hwc : wc < n) (hk : k + 1 < n) :
    ageIndex n (nextCursor wc n) (k + 1) = ageIndex n wc k := by
  rw [ageIndex_eq_ite (nextCursor_lt _ _ (by omega)) hk, ageIndex_eq_ite hwc (by omega), nextCursor_eq_ite hwc]
  split_ifs <;> omega

/-- The cell under the cursor holds the oldest sample, of age N_TAPS - 1, and no younger one. -/
theorem ageIndex_ne_cursor {n wc k : Nat} (hwc : wc < n) (hk : k + 1 < n) : ageIndex n wc k ≠ wc := by
  rw [ageIndex_eq_ite hwc (by omega)]
  split_ifs <;> omega

theorem firXl_firPush_zero {c : Config} {f : FirCells} (x : Sample) (hf : f.Fits c) :
    firXl c (firPush c x f) 0 = x := by
  obtain ⟨-, hdl, hwc⟩ := hf
  have hcell : firXl c (firPush c x f) 0 = memRead (memWrite f.dl f.wc x) f.wc :=
    congrArg (memRead _) (ageIndex_nextCursor_zero hwc)
  rw [hcell, memRead_memWrite_same _ _ _ (hdl ▸ hwc)]

theorem firXl_firPush_succ {c : Config} {f : FirCells} (x : Sample) {k : Nat} (hf : f.Fits c)
    (hk : k + 1 < c.nTaps) : firXl c (firPush c x f) (k + 1) = firXl c f k := by
  obtain ⟨-, -, hwc⟩ := hf
  have hcell : firXl c (firPush c x f) (k + 1) = memRead (memWrite f.dl f.wc x) (ageIndex c.nTaps f.wc k) :=
    congrArg (memRead _) (ageIndex_nextCursor_succ hwc hk)
  rw [hcell, memRead_memWrite_other _ _ _ _ (ageIndex_ne_cursor hwc hk)]
  rfl

/-- The engine after the pushes of a list, first sample first. -/
def pushAll (c : Config) (xs : List Sample) (f : FirCells) : FirCells := xs.foldl (fun g x => firPush c x g) f

@[simp] theorem pushAll_nil (c : Config) (f : FirCells) : pushAll c [] f = f := rfl

@[simp] theorem pushAll_concat (c : Config) (xs : List Sample) (x : Sample) (f : FirCells) :
    pushAll c (xs ++ [x]) f = firPush c x (pushAll c xs f) := by
  simp [pushAll]

theorem pushAll_fits {c : Config} {f : FirCells} (xs : List Sample) (hf : f.Fits c) : (pushAll c xs f).Fits c := by
  induction xs using List.reverseRecOn with
  | nil => exact hf
  | append_singleton xs x ih => rw [pushAll_concat]; exact firPush_fits x ih

/-- By induction on the last push: it is the sample of age 0, and makes every earlier one a sample older. -/
theorem firXl_pushAll {c : Config} {f : FirCells} (hf : f.Fits c) (xs : List Sample) {k : Nat} (hk : k < c.nTaps) :
    firXl c (pushAll c xs f) k = if k < xs.length then memRead xs.reverse k else firXl c f (k - xs.length) := by
  induction xs using List.reverseRecOn generalizing k with
  | nil => simp
  | append_singleton xs x ih =>
    rw [pushAll_concat, List.reverse_concat, List.length_append, List.length_singleton]
    cases k with
    | zero => rw [firXl_firPush_zero x (pushAll_fits xs hf), if_pos (Nat.succ_pos _)]; rfl
    | succ k =>
      rw [firXl_firPush_succ x (pushAll_fits xs hf) hk, ih (by omega)]
      simp only [Nat.add_lt_add_iff_right, Nat.add_sub_add_right]
      rfl

/-- Settles O27, by induction on the pushes. -/
theorem delayLineHoldsTheMostRecentSamples : Obligations.DelayLineHoldsTheMostRecentSamples :=
  fun _ _ xs hf _ hk => firXl_pushAll hf xs hk

/-! ### Engines that agree by age -/

/-- Two loops whose bodies agree on the indices they run over give the same result. -/
theorem loopUp_congr {α : Type} {n : Nat} {body body' : Nat → α → α} (a : α)
    (h : ∀ k b, k < n → body k b = body' k b) : loopUp n body a = loopUp n body' a :=
  loopUp_rule (fun k b => b = loopUp k body' a) n body a rfl fun k b hk hb => by rw [hb, loopUp_succ, h k _ hk]

/-- The same taps and the same samples by age, whatever the cursors and the physical cells. -/
structure SameByAge (c : Config) (f g : FirCells) : Prop where
  taps : f.h = g.h
  samples : ∀ k, k < c.nTaps → firXl c f k = firXl c g k

theorem SameByAge.firPredict_eq {c : Config} {f g : FirCells} (hfg : SameByAge c f g) :
    firPredict c f = firPredict c g := by
  unfold firPredict firAcc
  rw [hfg.taps]
  exact congrArg narrow16 (loopUp_congr 0 fun k acc hk => by rw [hfg.samples k hk])

theorem SameByAge.update {c : Config} {f g : FirCells} (emu : Sample) (hfg : SameByAge c f g) :
    SameByAge c (firUpdate c emu f) (firUpdate c emu g) where
  taps := by
    unfold firUpdate
    rw [hfg.taps]
    exact loopUp_congr _ fun k h hk => by rw [hfg.samples k hk]
  samples := hfg.samples

theorem SameByAge.push {c : Config} {f g : FirCells} (x : Sample) (hf : f.Fits c) (hg : g.Fits c)
    (hfg : SameByAge c f g) : SameByAge c (firPush c x f) (firPush c x g) where
  taps := hfg.taps
  samples k hk := by
    cases k with
    | zero => rw [firXl_firPush_zero x hf, firXl_firPush_zero x hg]
    | succ k => rw [firXl_firPush_succ x hf hk, firXl_firPush_succ x hg hk, hfg.samples k (by omega)]

theorem SameByAge.step_error {c : Config} {f g : FirCells} (x d : Sample) (hfg : SameByAge c f g) :
    (lmsStep c x d f).1 = (lmsStep c x d g).1 :=
  congrArg (firErr d) hfg.firPredict_eq

theorem SameByAge.step_cells {c : Config} {f g : FirCells} (x d : Sample) (hf : f.Fits c) (hg : g.Fits c)
    (hfg : SameByAge c f g) : SameByAge c (lmsStep c x d f).2 (lmsStep c x d g).2 := by
  unfold lmsStep
  rw [hfg.firPredict_eq]
  exact (hfg.update _).push x (firUpdate_fits _ hf) (firUpdate_fits _ hg)

theorem SameByAge.feed {c : Config} {f g : FirCells} (ps : List (Sample × Sample)) (hf : f.Fits c)
    (hg : g.Fits c) (hfg : SameByAge c f g) :
    (lmsFeed c ps f).1 = (lmsFeed c ps g).1 ∧ SameByAge c (lmsFeed c ps f).2 (lmsFeed c ps g).2 := by
  induction ps generalizing f g with
  | nil => exact ⟨rfl, hfg⟩
  | cons p ps ih =>
    obtain ⟨x, d⟩ := p
    obtain ⟨herrs, hcells⟩ := ih (lmsStep_fits x d hf) (lmsStep_fits x d hg) (hfg.step_cells x d hf hg)
    exact ⟨congrArg₂ List.cons (hfg.step_error x d) herrs, hcells⟩

/-- Settles O34: agreement by age is kept by every sample fed, and the errors see nothing else. -/
theorem engineDependsOnAgesNotOnTheCursor : Obligations.EngineDependsOnAgesNotOnTheCursor := by
  unfold Obligations.EngineDependsOnAgesNotOnTheCursor
  intro c f g ps hf hg htaps hsamples
  obtain ⟨herrs, hcells⟩ := SameByAge.feed ps hf hg ⟨htaps, hsamples⟩
  exact ⟨herrs, hcells.taps, hcells.samples⟩

end Sys2Proof.Proofs

/-! The memory chapter (20_memory.md): every index the rules compute lies inside the space it is used on (R73). One lemma
per computed index; with those of the state's laws (`ageIndex_lt`, `nextCursor_lt`) they make up O25. -/

namespace Sys2Proof.Proofs

open Sys2Proof Sys2Proof.Machine

/-- INBUF and OUTBUF: the right sample is the later of the two, and the last pair ends with the block. -/
theorem pairIndexes_lt {c : Config} {j : Nat} (hc : c.wf = true) (hj : j < c.n) :
    leftIndex j < c.blockLen ∧ rightIndex j < c.blockLen := by
  have hpairs : 2 * c.n = c.blockLen := (Config.two_n hc).1
  have hright : rightIndex j < c.blockLen := by unfold rightIndex; omega
  exact ⟨Nat.lt_trans (Nat.lt_succ_self _) hright, hright⟩

/-- DRBUF as the shift uses it: DELAY samples move down by N, and both ends of every move are inside. -/
theorem shiftIndexes_lt {c : Config} {i : Nat} (hi : i < c.delay) : i < c.drLen ∧ c.n + i < c.drLen := by
  unfold Config.drLen
  omega

/-- DRBUF as the two windows use it: the delayed one starts at cell 0, the current one at DELAY, each N long. -/
theorem windowIndexes_lt {c : Config} {i : Nat} (hi : i < c.n) : dlyIndex i < c.drLen ∧ curIndex c i < c.drLen := by
  unfold dlyIndex curIndex Config.drLen
  omega

/-- FULL_TURN is the number of phases one sine entry covers times the number of entries: this is where SINE_BITS must not
exceed PHASE_W. -/
theorem fullTurn_eq_shift_mul_sine {c : Config} (hc : c.wf = true) :
    c.fullTurn = 2 ^ sineShift c * c.sine.length := by
  obtain ⟨-, -, -, -, -, hbits, hsine, -⟩ := (Config.wf_iff c).1 hc
  rw [hsine, sineShift, ← pow_add, Nat.sub_add_cancel hbits, Config.fullTurn]

/-- SINE: the top bits of a phase below a full turn name an entry of the table. -/
theorem tableIndex_lt {c : Config} {q : Nat} (hc : c.wf = true) (hq : q < c.fullTurn) :
    tableIndex c q < c.sine.length :=
  Nat.div_lt_of_lt_mul (fullTurn_eq_shift_mul_sine hc ▸ hq)

/-- Settles O25: each space's indexes by their own lemma; the tables that a loop counter reads directly have the counter's
bound as their length. -/
theorem everyIndexLiesInsideItsSpace : Obligations.EveryIndexLiesInsideItsSpace := by
  unfold Obligations.EveryIndexLiesInsideItsSpace
  intro c hc
  obtain ⟨-, -, htaps, -, -, -, -, hshapeA, hshapeB, hbits, hbitsLen⟩ := (Config.wf_iff c).1 hc
  refine ⟨fun j hj => pairIndexes_lt hc hj, fun i hi => shiftIndexes_lt hi, fun i hi => ?windows,
    fun wc k _ _ => ⟨ageIndex_lt _ wc k htaps, nextCursor_lt wc _ htaps⟩,
    fun q hq => tableIndex_lt hc hq, fun b hb => ⟨hbits ▸ hb, nextCursor_lt b _ hbitsLen⟩⟩
  case windows =>
    obtain ⟨hdly, hcur⟩ := windowIndexes_lt hi
    exact ⟨hdly, hcur, hshapeA ▸ hi, hshapeB ▸ hi⟩

end Sys2Proof.Proofs

/-! The encoding chapter (30_encoding.md): the words of the two ports and their decoder, what a presentation does on each
port, and what the pseudo-moves of R111 stand for. The obligations about a whole step are short uses of one equation per
branch of `runPins`. -/

namespace Sys2Proof.Proofs

open Sys2Proof Sys2Proof.Machine

/-! ### The words and the decoder -/

/-- The row that MODE selects claims exactly that mode (30_encoding.md R106). -/
@[simp] theorem selector_processRow (m : Mode) : (processRow m).selector = some m := by
  cases m <;> rfl

/-- The four rows of PROCESS share one word (30_encoding.md R97). -/
@[simp] theorem encode_processRow (m : Mode) : encode (processRow m) = .cmd 0x02 := by
  cases m <;> rfl

theorem selectedIn_iff (i : Instr) (m : Mode) : i.selectedIn m = true ↔ i.selector = none ∨ i.selector = some m := by
  unfold Instr.selectedIn
  cases hsel : i.selector with
  | none => simp
  | some k => simp

/-- A row with a selector is the row of PROCESS that its mode selects. -/
theorem eq_processRow_of_selector {i : Instr} {m : Mode} (h : i.selector = some m) : i = processRow m := by
  cases i with
  | init => cases h
  | ctrlTick => cases h
  | evInc => cases h
  | evDec => cases h
  | processPass => cases h; rfl
  | processNotch => cases h; rfl
  | processTone => cases h; rfl
  | processMod => cases h; rfl

theorem decodeCommand_of_decode {m : Mode} {w : BitVec 8} {i : Instr} (h : decode m (.cmd w) = .ok [i]) :
    decodeCommand m w = .ok i := by
  replace h : (decodeCommand m w).map (fun j => [j]) = .ok [i] := h
  cases hd : decodeCommand m w with
  | ok j => rw [hd] at h; cases h; rfl
  | error e => rw [hd] at h; cases h

/-- Settles O1, row by row. -/
theorem wordsOfTheOperationMapReadAsTheirRows : Obligations.WordsOfTheOperationMapReadAsTheirRows :=
  ⟨fun _ => rfl, rfl, rfl, rfl, rfl, fun _ => rfl, rfl, rfl, rfl, rfl⟩

/-- A word is decoded back to the instruction it encodes, in the modes the instruction's selector admits: a row of
PROCESS is the row its own mode selects, and no other row looks at MODE. -/
theorem decode_encode {i : Instr} {m : Mode} (h : i.selectedIn m = true) : decode m (encode i) = .ok [i] := by
  rcases (selectedIn_iff i m).1 h with hnone | hsome
  · cases i with
    | init => rfl
    | ctrlTick => rfl
    | evInc => rfl
    | evDec => rfl
    | processPass => cases hnone
    | processNotch => cases hnone
    | processTone => cases hnone
    | processMod => cases hnone
  · obtain rfl := eq_processRow_of_selector hsome
    rw [encode_processRow]
    rfl

/-- A command word that decodes is its instruction's encoding, and MODE is admitted: one case per word of the map. -/
theorem encode_of_decodeCommand {m : Mode} {w : BitVec 8} {i : Instr} (h : decodeCommand m w = .ok i) :
    encode i = .cmd w ∧ i.selectedIn m = true := by
  rcases decodeCommand_cases m w with ⟨hw, hd⟩ | ⟨hw, hd⟩ | ⟨hw, hd⟩ | ⟨-, -, -, hd⟩
  · obtain rfl := Except.ok.inj (hd.symm.trans h)
    exact ⟨hw ▸ rfl, rfl⟩
  · obtain rfl := Except.ok.inj (hd.symm.trans h)
    exact ⟨hw ▸ encode_processRow m, (selectedIn_iff _ m).2 (.inr (selector_processRow m))⟩
  · obtain rfl := Except.ok.inj (hd.symm.trans h)
    exact ⟨hw ▸ rfl, rfl⟩
  · cases hd.symm.trans h

/-- Bit 0 of an event word is its EV_INC (30_encoding.md R100). -/
theorem evInc_mem_decodeEvent (w : BitVec 2) : Instr.evInc ∈ decodeEvent w ↔ w.getLsbD 0 = true := by
  simp [decodeEvent]

/-- Bit 1 of an event word is its EV_DEC (30_encoding.md R100). -/
theorem evDec_mem_decodeEvent (w : BitVec 2) : Instr.evDec ∈ decodeEvent w ↔ w.getLsbD 1 = true := by
  simp [decodeEvent]

@[simp] theorem encodeEvents_bit_zero (inc dec : Bool) : (encodeEvents inc dec).getLsbD 0 = inc := by
  revert inc dec; decide

@[simp] theorem encodeEvents_bit_one (inc dec : Bool) : (encodeEvents inc dec).getLsbD 1 = dec := by
  revert inc dec; decide

/-- An event word is its two bits and nothing else, so none is reserved (30_encoding.md R109). -/
theorem encodeEvents_bits (w : BitVec 2) : encodeEvents (w.getLsbD 0) (w.getLsbD 1) = w := by
  revert w; decide

/-- Settles O2: the round trip of an instruction, of a command word, of an event word, and of a pair of events. -/
theorem decodeAndEncodeAgree : Obligations.DecodeAndEncodeAgree := by
  unfold Obligations.DecodeAndEncodeAgree
  refine ⟨fun i m => decode_encode, fun m w i => encode_of_decodeCommand, fun w => ?eventWord, fun inc dec => ?events⟩
  case eventWord => simp only [evInc_mem_decodeEvent, evDec_mem_decodeEvent, Bool.decide_eq_true, encodeEvents_bits]
  case events => simp only [decodeEvent, encodeEvents_bit_zero, encodeEvents_bit_one]

/-! ### One presentation: an equation per branch of `runPins` -/

theorem runPins_events {p : Pins} (s : State) (hr : p.rst = false) (hv : p.cmdValid = false) :
    runPins p s = .next { s with incPend := s.incPend || p.ev.getLsbD 0, decPend := s.decPend || p.ev.getLsbD 1 } := by
  simp [runPins, hr, hv, execAll_decodeEvent]

theorem runPins_busy {p : Pins} {s : State} (hr : p.rst = false) (hv : p.cmdValid = true) (hb : s.busy = true) :
    runPins p s = holdCommand p s := by
  simp [runPins, hr, hv, hb]

theorem runPins_command {p : Pins} {s : State} {i : Instr} (hr : p.rst = false) (hv : p.cmdValid = true)
    (hb : s.busy = false) (hd : decodeCommand s.mode p.cmd = .ok i) :
    runPins p s = thenState (runCommand i s) (holdEvents p) := by
  simp [runPins, hr, hv, hb, hd]

theorem runPins_reserved {p : Pins} {s : State} {w : BitVec 8} (hr : p.rst = false) (hv : p.cmdValid = true)
    (hb : s.busy = false) (hd : decodeCommand s.mode p.cmd = .error (.reservedCommand w)) :
    runPins p s = .refused (.reservedCommand w) := by
  simp [runPins, hr, hv, hb, hd]

/-- With no event presented nothing is held. -/
theorem thenState_holdEvents_of_no_event {p : Pins} (o : Host.Outcome State Fault Refusal) (h : p.ev = 0) :
    thenState o (holdEvents p) = o := by
  cases o with
  | next t => simp [holdEvents, h]
  | fault r => rfl
  | refused r => rfl

/-- A command word presented alone is performed as a command. -/
theorem runPins_pinsOf_cmd {s : State} {w : BitVec 8} {i : Instr} (hb : s.busy = false)
    (hd : decodeCommand s.mode w = .ok i) : runPins (pinsOf (.cmd w)) s = runCommand i s := by
  rw [runPins_command (p := pinsOf (.cmd w)) rfl rfl hb hd, thenState_holdEvents_of_no_event _ rfl]

theorem execAll_singleton (i : Instr) (s : State) : execAll [i] s = exec i s := by
  unfold execAll
  cases exec i s <;> rfl

/-- An event word of one event is that event's operation. -/
theorem runPins_pinsOf_ev {s : State} {w : BitVec 2} {i : Instr} (hd : decodeEvent w = [i]) :
    runPins (pinsOf (.ev w)) s = exec i s := by
  have hrun : runPins (pinsOf (.ev w)) s = execAll (decodeEvent w) s := rfl
  rw [hrun, hd, execAll_singleton]

/-! ### The step of each presentation -/

/-- A word that none of the three rows has is rejected by its value (30_encoding.md R108). -/
theorem decodeCommand_reserved (m : Mode) {w : BitVec 8} (h1 : w ≠ 0x01) (h2 : w ≠ 0x02) (h3 : w ≠ 0x03) :
    decodeCommand m w = .error (.reservedCommand w) := by
  rcases decodeCommand_cases m w with ⟨hw, -⟩ | ⟨hw, -⟩ | ⟨hw, -⟩ | ⟨-, -, -, hd⟩
  · exact absurd hw h1
  · exact absurd hw h2
  · exact absurd hw h3
  · exact hd

/-- Settles O3: the invariant has BUSY = 0, so the word reaches the decoder. -/
theorem reservedCommandWordsAreRefused : Obligations.ReservedCommandWordsAreRefused := by
  unfold Obligations.ReservedCommandWordsAreRefused
  refine ⟨fun m w => decodeCommand_reserved m, fun s p rest hinv hq hr hv h1 h2 h3 => ?refused⟩
  case refused =>
    obtain ⟨hs, -, hb⟩ := hinv
    rw [step_move hs hq]
    exact runPins_reserved hr hv (by exact hb) (decodeCommand_reserved _ h1 h2 h3)

/-- Settles O4, port by port. -/
theorem stepRunsTheDecodedInstruction : Obligations.StepRunsTheDecodedInstruction := by
  unfold Obligations.StepRunsTheDecodedInstruction
  intro s w i rest hs hb hq hd
  rw [step_move hs hq]
  cases w with
  | cmd w => exact runPins_pinsOf_cmd (by exact hb) (decodeCommand_of_decode hd)
  | ev w => exact runPins_pinsOf_ev (Except.ok.inj hd)

/-- Settles O5, by the branch of a presentation without reset or command. -/
theorem eventWordLatchesExactlyItsBits : Obligations.EventWordLatchesExactlyItsBits := by
  unfold Obligations.EventWordLatchesExactlyItsBits
  intro s p rest hs hq hr hv
  rw [step_move hs hq]
  exact runPins_events _ hr hv

/-- Settles O8: the held command is put back in front of the script, and the events with it are latched. -/
theorem commandIsHeldWhileBusy : Obligations.CommandIsHeldWhileBusy := by
  unfold Obligations.CommandIsHeldWhileBusy
  intro s p rest hs hb hq hr hv
  rw [step_move hs hq]
  show runPins p _ = _
  rw [runPins_busy hr hv (by exact hb), holdCommand, execAll_decodeEvent]
  rfl

/-- Settles O13, by the branches of LOAD and READ with BUSY = 0. -/
theorem loadWritesInbufAndReadChangesNothing : Obligations.LoadWritesInbufAndReadChangesNothing := by
  unfold Obligations.LoadWritesInbufAndReadChangesNothing
  intro s rest hs hb
  refine ⟨fun vs hq hlen => ?load, fun vs hq hlen => ?wrongLength, fun hq => ?read⟩
  case load => rw [step_move hs hq]; simp [runMove, runLoad, hb, hlen]
  case wrongLength => rw [step_move hs hq]; simp [runMove, runLoad, hb, hlen]
  case read => rw [step_move hs hq]; simp [runMove, runRead, hb]

/-! ### PROCESS and its claim -/

/-- Each row of PROCESS checks its mode before anything else. -/
theorem exec_processRow (m : Mode) : ∃ body : State → State, exec (processRow m) = whenMode m body := by
  cases m with
  | passThrough => exact ⟨_, rfl⟩
  | adaptiveNotch => exact ⟨_, rfl⟩
  | tone => exact ⟨_, rfl⟩
  | modulate => exact ⟨_, rfl⟩

theorem exec_processRow_next {m : Mode} {s : State} (h : s.mode = m) : ∃ t, exec (processRow m) s = .next t := by
  obtain ⟨body, hexec⟩ := exec_processRow m
  exact ⟨body s, by rw [hexec, whenMode, if_pos h]⟩

/-- Settles O48: such a row is the row of PROCESS that `m` selects. -/
theorem processRowOfAnotherModeIsRefused : Obligations.ProcessRowOfAnotherModeIsRefused := by
  unfold Obligations.ProcessRowOfAnotherModeIsRefused
  intro i m s hsel hmode
  obtain rfl := eq_processRow_of_selector hsel
  obtain ⟨body, hexec⟩ := exec_processRow m
  rw [hexec, whenMode, if_neg hmode]

/-- Settles O11: a true claim runs the command the presented word 0x02 decodes to; a false one is refused by the row. -/
theorem modeClaimIsCheckedByThePseudoMove : Obligations.ModeClaimIsCheckedByThePseudoMove := by
  unfold Obligations.ModeClaimIsCheckedByThePseudoMove
  intro s m rest hs hb hq
  have hclaim : step s = runCommand (processRow m) { s with script := rest, done := false } := by
    rw [step_move hs hq]
    simp [runMove, runProcessAs, hb]
  refine ⟨fun hmode => ?trueClaim, fun hmode => ?falseClaim⟩
  case trueClaim =>
    subst hmode
    rw [hclaim, step_move (m := presentInstr (processRow s.mode)) (rest := rest) (by exact hs) rfl, presentInstr,
      encode_processRow]
    exact (runPins_pinsOf_cmd (by exact hb) rfl).symm
  case falseClaim =>
    rw [hclaim, runCommand, processRowOfAnotherModeIsRefused _ m _ (selector_processRow m) (by exact hmode)]
    rfl

/-! ### The completion strobe -/

/-- Settles O9, by the cases of a step: the two that perform a command end in its completion, and in every other the
strobe has fallen. -/
theorem doneIsPulsedExactlyAtCompletion : Obligations.DoneIsPulsedExactlyAtCompletion := by
  unfold Obligations.DoneIsPulsedExactlyAtCompletion
  intro s t hstep
  cases step_did hstep with
  | command p rest i u hq hr hv hb hd hx ht =>
    simp [ht, holdEvents_eq, completeCommand, State.commandNext, hq, hr, hv, hb]
  | claim m rest u hq hb hx ht => simp [ht, completeCommand, State.commandNext, hq, hb]
  | idle hq ht => simp [ht, idleStep, State.commandNext, hq]
  | reset p rest hq hr ht => simp [ht, applyReset, State.resetOf, State.commandNext, hq, hr]
  | held p rest hq hr hv hb ht => simp [ht, State.commandNext, hq, hb]
  | events p rest hq hr hv ht => simp [ht, State.commandNext, hq, hv]
  | load vs rest hq hb hlen ht => simp [ht, State.commandNext, hq]
  | read rest hq hb ht => simp [ht, State.commandNext, hq]
  | claimHeld m rest hq hb ht => simp [ht, State.commandNext, hq, hb]

/-! ### The pseudo-moves -/

/-- The mode table is the increment first, then the decrement (44_mode_control.md R211). -/
theorem modeTable_eq (m : Mode) (inc dec : Bool) :
    modeTable m inc dec =
      if dec then modeDown (if inc then modeUp m else m) else if inc then modeUp m else m := by
  cases m <;> cases inc <;> cases dec <;> rfl

/-- A control tick steps MODE by the table and refreshes IND when a flag was consumed (44_mode_control.md R216). -/
theorem ctrlTick_eq (s : State) : ctrlTick s = { s with
    incPend := false
    decPend := false
    mode := modeTable s.mode s.incPend s.decPend
    ind := if s.incPend || s.decPend then modeCode (modeTable s.mode s.incPend s.decPend) else s.ind } := by
  unfold ctrlTick
  rw [consumeInc_spec]
  simp only [consumeDec_spec, ← modeTable_eq]
  split
  · rfl
  · rfl

/-- The step of a presented CTRL_TICK. -/
theorem step_ctrlTick {s : State} {rest : List HostMove} (hs : s.shapeOk = true) (hb : s.busy = false)
    (hq : s.script = presentInstr .ctrlTick :: rest) : step s = .next { s with
      incPend := false
      decPend := false
      mode := modeTable s.mode s.incPend s.decPend
      ind := if s.incPend || s.decPend then modeCode (modeTable s.mode s.incPend s.decPend) else s.ind
      script := rest
      done := true } := by
  rw [stepRunsTheDecodedInstruction s (encode .ctrlTick) .ctrlTick rest hs hb hq (decode_encode rfl)]
  simp [encode, exec, execCtrlTick, ctrlTick_eq, hb]

/-- Steps compose: `a` of them that answer a next state, and then `b` more from there. -/
theorem stepMany_add {a : Nat} (b : Nat) {s t : State} (h : stepMany a s = .next t) :
    stepMany (a + b) s = stepMany b t := by
  induction a generalizing s with
  | zero => cases h; rw [Nat.zero_add]
  | succ a ih =>
    cases hstep : step s with
    | next v =>
      rw [stepMany_succ a hstep] at h
      rw [Nat.add_right_comm, stepMany_succ _ hstep, ih h]
    | fault r => cases r
    | refused r => simp [stepMany, hstep] at h

/-- An event word and the tick that consumes it, with nothing pending before: MODE moves by the word's bits. -/
theorem stepMany_eventThenTick {s : State} {e : BitVec 2} {rest : List HostMove} (hs : s.shapeOk = true)
    (hb : s.busy = false) (hq : s.script = .present (pinsOf (.ev e)) :: presentInstr .ctrlTick :: rest)
    (hinc : s.incPend = false) (hdec : s.decPend = false) (he : (e.getLsbD 0 || e.getLsbD 1) = true) :
    stepMany 2 s = .next { s with
      mode := modeTable s.mode (e.getLsbD 0) (e.getLsbD 1)
      ind := modeCode (modeTable s.mode (e.getLsbD 0) (e.getLsbD 1))
      script := rest
      done := true } := by
  rw [stepMany_succ 1 (eventWordLatchesExactlyItsBits s (pinsOf (.ev e)) _ hs hq rfl rfl),
    stepMany_succ 0 (step_ctrlTick (rest := rest) (by exact hs) (by exact hb) rfl)]
  simp only [stepMany, pinsOf, hinc, hdec, Bool.false_or, he, if_true]

/-- Repeating STEP_UP: what `k` of them leave, with nothing pending before (30_encoding.md R111). -/
structure SteppedUp (k : Nat) (s t : State) (rest : List HostMove) : Prop where
  cells : t = { s with mode := modeUp^[k] s.mode, ind := t.ind, script := rest, done := t.done }
  ind : s.ind = modeCode s.mode → t.ind = modeCode t.mode

theorem stepMany_stepUps (k : Nat) {s : State} {rest : List HostMove} (hs : s.shapeOk = true) (hb : s.busy = false)
    (hq : s.script = (List.replicate k (eventThenTick .evInc)).flatten ++ rest)
    (hinc : s.incPend = false) (hdec : s.decPend = false) :
    ∃ t, stepMany (List.replicate k (eventThenTick .evInc)).flatten.length s = .next t ∧ SteppedUp k s t rest := by
  induction k generalizing s with
  | zero =>
    refine ⟨s, rfl, ?_, id⟩
    have hrest : rest = s.script := hq.symm
    rw [hrest]
    rfl
  | succ k ih =>
    rw [List.replicate_succ, List.flatten_cons, List.append_assoc] at hq
    have hup := stepMany_eventThenTick hs hb hq hinc hdec rfl
    obtain ⟨t, ht, hcells, hind⟩ := ih (s := { s with
      mode := modeUp s.mode
      ind := modeCode (modeUp s.mode)
      script := (List.replicate k (eventThenTick .evInc)).flatten ++ rest
      done := true }) (by exact hs) hb rfl hinc hdec
    refine ⟨t, ?_, hcells, fun _ => hind rfl⟩
    rw [List.replicate_succ, List.flatten_cons, List.length_append]
    refine (stepMany_add _ hup).trans ?_
    rw [modeTable_eq]
    exact ht

/-- Stepping up by the difference of the two codes leads from one mode to the other, modulo 4. -/
theorem modeUp_iterate_difference (c m : Mode) : modeUp^[(modeCode m - modeCode c).toNat] c = m := by
  cases c <;> cases m <;> rfl

/-- EV_BOTH is one step, and the same as EV_INC then EV_DEC. -/
theorem evBoth_effect {s : State} {rest : List HostMove} (hs : s.shapeOk = true)
    (hq : s.script = expandPseudo .evBoth ++ rest) :
    step s = .next { s with incPend := true, decPend := true, script := rest, done := false } ∧
    stepMany 2 { s with script := presentInstr .evInc :: presentInstr .evDec :: rest } = step s := by
  have hboth : step s = .next { s with incPend := true, decPend := true, script := rest, done := false } := by
    rw [eventWordLatchesExactlyItsBits s _ rest hs hq rfl rfl]
    simp [pinsOf]
  refine ⟨hboth, ?_⟩
  rw [hboth,
    stepMany_succ 1 (eventWordLatchesExactlyItsBits _ (pinsOf (.ev 0b01)) _ (by exact hs) rfl rfl rfl),
    stepMany_succ 0 (eventWordLatchesExactlyItsBits _ (pinsOf (.ev 0b10)) rest (by exact hs) rfl rfl rfl)]
  simp [stepMany, pinsOf]

/-- BLOCK is LOAD, the row of PROCESS that MODE selects, and READ. -/
theorem block_effect {s : State} {rest : List HostMove} {vs : List Sample} (hs : s.shapeOk = true)
    (hb : s.busy = false) (hq : s.script = expandPseudo (.block vs) ++ rest) (hlen : vs.length = s.cfg.blockLen) :
    ∃ t, exec (processRow s.mode) { s with inbuf := vs, script := .read :: rest, done := false, busy := true } =
        .next t ∧
      stepMany 3 s = .next { t with busy := false, done := false, script := rest } := by
  obtain ⟨hload, -, -⟩ := loadWritesInbufAndReadChangesNothing s (processMove :: .read :: rest) hs hb
  have hloaded := hload vs hq hlen
  have hs₁ : State.shapeOk { s with inbuf := vs, script := processMove :: .read :: rest, done := false } = true := by
    obtain ⟨hwf, hh, hdl, hwc, hdr, hph, hbc, -, hout⟩ := (State.shapeOk_iff s).1 hs
    exact (State.shapeOk_iff _).2 ⟨hwf, hh, hdl, hwc, hdr, hph, hbc, hlen, hout⟩
  obtain ⟨t, ht⟩ := exec_processRow_next (s := { s with
    inbuf := vs, script := .read :: rest, done := false, busy := true }) rfl
  have hprocess : step _ = .next (completeCommand t) :=
    step_command (p := pinsOf (.cmd 0x02)) hs₁ hb rfl rfl rfl rfl ht
  have hst : t.shapeOk = true := exec_shapeOk (by exact hs₁) ht
  obtain ⟨⟨-, -, -, -, hscript⟩, -⟩ := onlyTheNamedOperationsWriteEachCell _ _ _ ht
  obtain ⟨-, -, hread⟩ := loadWritesInbufAndReadChangesNothing (completeCommand t) rest hst rfl
  exact ⟨t, ht, by rw [stepMany_succ 2 hloaded, stepMany_succ 1 hprocess, stepMany_succ 0 (hread hscript)]; rfl⟩

/-- GOTO_MODE from the machine's mode: the steps up add up to the mode named. -/
theorem gotoMode_effect {s : State} {rest : List HostMove} {m : Mode} (hs : s.shapeOk = true) (hb : s.busy = false)
    (hq : s.script = expandPseudo (.gotoMode s.mode m) ++ rest) (hinc : s.incPend = false) (hdec : s.decPend = false) :
    ∃ t, stepMany (expandPseudo (.gotoMode s.mode m)).length s = .next t ∧
      t = { s with mode := m, ind := t.ind, script := rest, done := t.done } ∧
      (s.ind = modeCode s.mode → t.ind = modeCode m) := by
  obtain ⟨t, ht, hcells, hind⟩ := stepMany_stepUps _ hs hb hq hinc hdec
  rw [modeUp_iterate_difference] at hcells
  have hmode : t.mode = m := by rw [hcells]
  exact ⟨t, ht, hcells, hmode ▸ hind⟩

/-- Settles O12, one pseudo-move after another. -/
theorem pseudoMovesDoWhatTheyStandFor : Obligations.PseudoMovesDoWhatTheyStandFor := by
  unfold Obligations.PseudoMovesDoWhatTheyStandFor
  intro s rest hs hb
  exact ⟨evBoth_effect hs,
    fun hq hinc hdec => stepMany_eventThenTick (e := 0b01) hs hb hq hinc hdec rfl,
    fun hq hinc hdec => stepMany_eventThenTick (e := 0b10) hs hb hq hinc hdec rfl,
    fun _ => block_effect hs hb, fun _ => gotoMode_effect hs hb⟩

end Sys2Proof.Proofs

/-! The engine chapter (40_adaptive_fir.md): one rule per sub-operation of a sample (predict, scale, update, push), the
sample put together from them, and what a list of samples leaves. -/

namespace Sys2Proof.Proofs

open Sys2Proof Sys2Proof.Machine

/-! ### The prediction -/

/-- The ascending loop is the left fold over the indices. -/
theorem loopUp_eq_foldl {α : Type} (n : Nat) (body : Nat → α → α) (a : α) :
    loopUp n body a = (List.range n).foldl (fun b k => body k b) a := by
  induction n with
  | zero => rfl
  | succ n ih => rw [loopUp_succ, ih, List.range_succ, List.foldl_concat]

theorem convolve_eq_loopUp (c : Config) (h : List Sample) (x : Nat → Sample) :
    convolve c h x = narrow16 (loopUp c.nTaps (fun k acc => add32 acc (qmul32 (memRead h k) (x k))) 0) := by
  rw [loopUp_eq_foldl, convolve]

/-- The convolution reads its samples at the taps' indices only. -/
theorem convolve_congr {c : Config} (h : List Sample) {x y : Nat → Sample} (hxy : ∀ k, k < c.nTaps → x k = y k) :
    convolve c h x = convolve c h y := by
  rw [convolve_eq_loopUp, convolve_eq_loopUp]
  exact congrArg narrow16 (loopUp_congr 0 fun k acc hk => by rw [hxy k hk])

/-- A zero sample adds a zero product, so the accumulator stays at its start. -/
theorem convolve_eq_zero {c : Config} (h : List Sample) {x : Nat → Sample} (hx : ∀ k, k < c.nTaps → x k = 0) :
    convolve c h x = 0 := by
  have hacc : loopUp c.nTaps (fun k acc => add32 acc (qmul32 (memRead h k) (x k))) 0 = (0 : Acc) :=
    loopUp_rule (fun _ acc => acc = 0) _ _ _ rfl fun k acc hk hzero => by simp [hzero, hx k hk]
  rw [convolve_eq_loopUp, hacc]
  exact narrow16_zero

theorem firPredict_eq_convolve (c : Config) (f : FirCells) : firPredict c f = convolve c f.h (firXl c f) :=
  (convolve_eq_loopUp c f.h (firXl c f)).symm

theorem firPredict_eq_convolve_ageSample (c : Config) (f : FirCells) :
    firPredict c f = convolve c f.h (ageSample c f) := by
  rw [firPredict_eq_convolve]
  exact convolve_congr _ fun k hk => firXl_eq_ageSample c f k hk

/-- Settles O28: the loop as a fold, and XL(k) as the cell `k + 1` behind the cursor. -/
theorem predictionIsTheClampedConvolution : Obligations.PredictionIsTheClampedConvolution :=
  fun c f _ => firPredict_eq_convolve_ageSample c f

/-! ### The scaled error -/

theorem abs_mul_sample_le (a b : Sample) : |a.toInt * b.toInt| ≤ 32768 * 32768 := by
  rw [abs_mul]
  exact mul_le_mul (abs_sample_le a) (abs_sample_le b) (abs_nonneg _) (by norm_num)

/-- A product rounded to a Sample. Only the doubled product 2^31 meets a clamp, and `qmul32`'s and `narrow16`'s together
give the same 32767 as one limit after the rounding. -/
theorem narrow16_qmul32_toInt (a b : Sample) :
    (narrow16 (qmul32 a b)).toInt = min 32767 ((2 * (a.toInt * b.toInt) + 32768) / 65536) := by
  obtain ⟨hlo, hhi⟩ := abs_le.1 (abs_mul_sample_le a b)
  rw [narrow16_toInt, qmul32_toInt, mul_assoc, sat16_eq_max_min, sat32_eq_max_min]
  omega

theorem narrow16_qmul32_eq_zero_iff (a b : Sample) :
    narrow16 (qmul32 a b) = 0 ↔ -16384 ≤ a.toInt * b.toInt ∧ a.toInt * b.toInt ≤ 16383 := by
  rw [← BitVec.toInt_inj, narrow16_qmul32_toInt, show (0 : Sample).toInt = 0 from rfl]
  omega

/-- The tie goes up. -/
theorem narrow16_qmul32_of_tie {a b : Sample} (h : a.toInt * b.toInt = 16384) : narrow16 (qmul32 a b) = 1 := by
  apply BitVec.eq_of_toInt_eq
  rw [narrow16_qmul32_toInt, h]
  decide

/-- Settles O30: `firScale` is the rounded product of MU and the error. -/
theorem scaledErrorIsTheProductRoundedOnce : Obligations.ScaledErrorIsTheProductRoundedOnce := by
  unfold Obligations.ScaledErrorIsTheProductRoundedOnce
  refine fun c e => ⟨rfl, narrow16_qmul32_toInt _ _, narrow16_qmul32_eq_zero_iff _ _, narrow16_qmul32_of_tie,
    fun hmu he => ?rail⟩
  case rail =>
    rw [firScale, hmu, he]
    decide

/-! ### The update -/

/-- A loop that rewrites each cell from its own old value: the cells passed hold the new value of their own old one. -/
theorem memRead_loopUp_memWrite_own (g : Nat → Sample → Sample) {n : Nat} {sp : List Sample} (hn : n ≤ sp.length)
    (j : Nat) : memRead (loopUp n (fun k b => memWrite b k (g k (memRead b k))) sp) j =
      if j < n then g j (memRead sp j) else memRead sp j := by
  induction n with
  | zero => rfl
  | succ n ih =>
    have hlen : (loopUp n (fun k b => memWrite b k (g k (memRead b k))) sp).length = sp.length :=
      loopUp_rule (fun _ (b : List Sample) => b.length = sp.length) n _ sp rfl fun _ b _ hb => by simpa using hb
    rw [loopUp_succ]
    by_cases hj : j = n
    · subst hj
      rw [memRead_memWrite_same _ _ _ (by omega), ih (by omega), if_neg (by omega), if_pos (by omega)]
    · rw [memRead_memWrite_other _ _ _ _ hj, ih (by omega)]
      exact if_congr (by omega) rfl rfl

theorem memRead_firUpdate_h {c : Config} {f : FirCells} (emu : Sample) (hf : f.Fits c) {k : Nat} (hk : k < c.nTaps) :
    memRead (firUpdate c emu f).h k = tapUpdate (memRead f.h k) emu (firXl c f k) := by
  obtain ⟨hh, -, -⟩ := hf
  exact (memRead_loopUp_memWrite_own (fun k h => tapUpdate h emu (firXl c f k)) hh.ge k).trans (if_pos hk)

/-- A zero product leaves the widened tap, which narrows back to itself. -/
theorem tapUpdate_of_zero (h : Sample) {emu x : Sample} (hz : emu = 0 ∨ x = 0) : tapUpdate h emu x = h := by
  have hprod : qmul32 emu x = 0#32 := by
    rcases hz with rfl | rfl
    · exact qmul32_zero_left x
    · exact qmul32_zero_right emu
  rw [tapUpdate, hprod, add32_zero_right, narrow16_ext32]

/-- Settles O29, from the rule of one tap. -/
theorem updateMovesEveryTapByItsOwnProduct : Obligations.UpdateMovesEveryTapByItsOwnProduct := by
  unfold Obligations.UpdateMovesEveryTapByItsOwnProduct
  intro c emu f hf
  obtain ⟨hlen, -, -⟩ := firUpdate_fits emu hf
  refine ⟨rfl, rfl, hlen, fun k hk => ⟨memRead_firUpdate_h emu hf hk, fun hz => ?unmoved⟩⟩
  case unmoved => rw [memRead_firUpdate_h emu hf hk, tapUpdate_of_zero _ hz]

/-! ### The push -/

/-- The cell under the cursor holds the oldest sample. -/
theorem ageIndex_oldest {n wc : Nat} (hwc : wc < n) : ageIndex n wc (n - 1) = wc := by
  rw [ageIndex_eq_ite hwc (by omega), if_neg (by omega)]
  omega

/-- What a push does to the cells: x in the cell under the cursor, every other cell as before, the cursor stepped. -/
structure Pushed (c : Config) (x : Sample) (f g : FirCells) : Prop where
  newest : memRead g.dl f.wc = x
  others : ∀ j, j ≠ f.wc → memRead g.dl j = memRead f.dl j
  cursor : g.wc = if f.wc = c.nTaps - 1 then 0 else f.wc + 1

theorem firPush_pushed {c : Config} {f : FirCells} (x : Sample) (hf : f.Fits c) : Pushed c x f (firPush c x f) := by
  obtain ⟨-, hdl, hwc⟩ := hf
  refine ⟨memRead_memWrite_same _ _ _ (hdl ▸ hwc), fun j hj => memRead_memWrite_other _ _ _ _ hj, ?cursor⟩
  case cursor => exact (nextCursor_eq_ite hwc).trans (if_congr (by omega) rfl rfl)

/-- Settles O26: the cells by `firPush_pushed`, the ages by the laws of `firXl` after a push. -/
theorem pushMakesTheNewSampleAgeZero : Obligations.PushMakesTheNewSampleAgeZero := by
  unfold Obligations.PushMakesTheNewSampleAgeZero
  intro c f x hf
  have hoverwritten : memRead f.dl f.wc = firXl c f (c.nTaps - 1) := by
    obtain ⟨-, -, hwc⟩ := hf
    rw [firXl, ageIndex_oldest hwc]
  obtain ⟨hnewest, hothers, hcursor⟩ := firPush_pushed x hf
  exact ⟨hoverwritten, firPush_fits x hf, rfl, hcursor, hnewest, hothers, firXl_firPush_zero x hf,
    fun _ hk => firXl_firPush_succ x hf hk⟩

/-! ### One sample -/

theorem lmsStep_error (c : Config) (x d : Sample) (f : FirCells) :
    (lmsStep c x d f).1 = sub16 d (convolve c f.h (firXl c f)) :=
  congrArg (sub16 d) (firPredict_eq_convolve c f)

theorem memRead_lmsStep_h {c : Config} {f : FirCells} (x d : Sample) (hf : f.Fits c) {k : Nat} (hk : k < c.nTaps) :
    memRead (lmsStep c x d f).2.h k =
      tapUpdate (memRead f.h k) (firScale c (lmsStep c x d f).1) (firXl c f k) :=
  memRead_firUpdate_h _ hf hk

/-- The update before it writes no cell of the line, so a sample pushes as FIR.PUSH alone does. -/
theorem lmsStep_pushed {c : Config} {f : FirCells} (x d : Sample) (hf : f.Fits c) :
    Pushed c x f (lmsStep c x d f).2 := by
  obtain ⟨hnewest, hothers, hcursor⟩ := firPush_pushed x (firUpdate_fits (firScale c (lmsStep c x d f).1) hf)
  exact ⟨hnewest, hothers, hcursor⟩

theorem firErr_self (d : Sample) : firErr d d = 0 := by
  apply BitVec.eq_of_toInt_eq
  rw [firErr, sub16_toInt, Int.sub_self]
  rfl

/-- Settles O31: the sub-operations' rules, with the ages as cells; the rules' examples by evaluation. -/
theorem stepOfTheEnginePredictsBeforeItPushes : Obligations.StepOfTheEnginePredictsBeforeItPushes := by
  unfold Obligations.StepOfTheEnginePredictsBeforeItPushes
  refine ⟨fun c f x d hf => ?step, fun d y => ⟨rfl, firErr_self d⟩, by decide, by decide, by decide, by decide⟩
  case step =>
    intro e r
    have herr : r.1 = e := congrArg (sub16 d) (firPredict_eq_convolve_ageSample c f)
    obtain ⟨hnewest, hothers, hcursor⟩ := lmsStep_pushed x d hf
    refine ⟨herr, lmsStep_fits x d hf, fun k hk => ?tap, hnewest, hothers, hcursor⟩
    case tap =>
      rw [← herr, ← firXl_eq_ageSample c f k hk]
      exact memRead_lmsStep_h x d hf hk

/-! ### A list of samples -/

theorem lmsFeed_append (c : Config) (ps qs : List (Sample × Sample)) (f : FirCells) :
    lmsFeed c (ps ++ qs) f =
      ((lmsFeed c ps f).1 ++ (lmsFeed c qs (lmsFeed c ps f).2).1, (lmsFeed c qs (lmsFeed c ps f).2).2) := by
  induction ps generalizing f with
  | nil => rfl
  | cons p ps ih => simp only [List.cons_append, lmsFeed, ih]

theorem lmsFeed_concat_cells (c : Config) (ps : List (Sample × Sample)) (x d : Sample) (f : FirCells) :
    (lmsFeed c (ps ++ [(x, d)]) f).2 = (lmsStep c x d (lmsFeed c ps f).2).2 := by
  rw [lmsFeed_append]
  rfl

@[simp] theorem lmsFeed_length (c : Config) (ps : List (Sample × Sample)) (f : FirCells) :
    (lmsFeed c ps f).1.length = ps.length := by
  induction ps generalizing f with
  | nil => rfl
  | cons p ps ih => simp [lmsFeed, ih]

theorem lmsFeed_fits {c : Config} {f : FirCells} (ps : List (Sample × Sample)) (hf : f.Fits c) :
    (lmsFeed c ps f).2.Fits c := by
  induction ps generalizing f with
  | nil => exact hf
  | cons p ps ih => exact ih (lmsStep_fits p.1 p.2 hf)

/-- The error at a position is the one its step gives from the cells the pairs before it left. -/
theorem memRead_lmsFeed_errors (c : Config) (ps qs : List (Sample × Sample)) (x d : Sample) (f : FirCells) :
    memRead (lmsFeed c (ps ++ (x, d) :: qs) f).1 ps.length = (lmsStep c x d (lmsFeed c ps f).2).1 := by
  rw [lmsFeed_append]
  simp [memRead, List.getD, lmsFeed]

/-- Fed pairs move the line as the pushes of their inputs alone do. -/
theorem firXl_lmsFeed {c : Config} {f : FirCells} (hf : f.Fits c) (ps : List (Sample × Sample)) {k : Nat}
    (hk : k < c.nTaps) : firXl c (lmsFeed c ps f).2 k = firXl c (pushAll c (ps.map Prod.fst) f) k := by
  induction ps using List.reverseRecOn generalizing k with
  | nil => rfl
  | append_singleton ps p ih =>
    obtain ⟨x, d⟩ := p
    have hstep : firXl c (lmsStep c x d (lmsFeed c ps f).2).2 k = firXl c (firPush c x (lmsFeed c ps f).2) k := rfl
    have hfed := lmsFeed_fits ps hf
    have hpushed := pushAll_fits (ps.map Prod.fst) hf
    rw [lmsFeed_concat_cells, hstep, List.map_append, List.map_singleton, pushAll_concat]
    cases k with
    | zero => rw [firXl_firPush_zero x hfed, firXl_firPush_zero x hpushed]
    | succ k => rw [firXl_firPush_succ x hfed hk, firXl_firPush_succ x hpushed hk, ih (by omega)]

theorem memRead_reverse {sp : List Sample} {k : Nat} (hk : k < sp.length) :
    memRead sp.reverse k = memRead sp (sp.length - 1 - k) := by
  rw [memRead, memRead, List.getD, List.getD, List.getElem?_reverse hk]

theorem ageSample_of_lineZero {c : Config} {f : FirCells} (hf : f.Fits c) (hz : f.LineZero c) (k : Nat) :
    ageSample c f k = 0 :=
  hz _ (Nat.mod_lt _ (Nat.zero_lt_of_lt hf.2.2))

/-- Settles O32: the error at the position is its step's, whose line holds by age the inputs pushed before it. -/
theorem predictionUsesOnlyEarlierInputs : Obligations.PredictionUsesOnlyEarlierInputs := by
  unfold Obligations.PredictionUsesOnlyEarlierInputs
  refine fun c f ps qs x d hf => ⟨?error, ageSample_of_lineZero hf⟩
  case error =>
    rw [memRead_lmsFeed_errors, lmsStep_error]
    refine congrArg (sub16 d) (convolve_congr _ fun k hk => ?sample)
    rw [firXl_lmsFeed hf ps hk, firXl_pushAll hf _ hk, List.length_map]
    split_ifs with hfed
    · rw [memRead_reverse (by simpa using hfed), List.length_map]
    · exact firXl_eq_ageSample c f _ (by omega)

/-! ### Zero input -/

/-- Every cell is the cell of an age. -/
theorem exists_ageIndex_eq {n wc j : Nat} (hwc : wc < n) (hj : j < n) : ∃ k, k < n ∧ ageIndex n wc k = j := by
  refine ⟨if j < wc then wc - 1 - j else wc + n - 1 - j, by split_ifs <;> omega, ?cell⟩
  case cell =>
    rw [ageIndex_eq_ite hwc (by split_ifs <;> omega)]
    split_ifs <;> omega

theorem lineZero_iff_firXl {c : Config} {f : FirCells} (hf : f.Fits c) :
    f.LineZero c ↔ ∀ k, k < c.nTaps → firXl c f k = 0 := by
  obtain ⟨-, -, hwc⟩ := hf
  constructor
  · exact fun hz k _ => hz _ (ageIndex_lt _ _ k (Nat.zero_lt_of_lt hwc))
  · intro hz j hj
    obtain ⟨k, hk, rfl⟩ := exists_ageIndex_eq hwc hj
    exact hz k hk

theorem firPredict_of_lineZero {c : Config} {f : FirCells} (hf : f.Fits c) (hz : f.LineZero c) :
    firPredict c f = 0 := by
  rw [firPredict_eq_convolve]
  exact convolve_eq_zero _ ((lineZero_iff_firXl hf).1 hz)

/-- Every product of the update is zero, so no tap moves. -/
theorem firUpdate_of_lineZero {c : Config} {f : FirCells} (emu : Sample) (hf : f.Fits c) (hz : f.LineZero c) :
    firUpdate c emu f = f := by
  have htaps : (firUpdate c emu f).h = f.h := by
    refine space_ext _ _ (firUpdate_h_length c emu f) fun k hk => ?tap
    have hk' : k < c.nTaps := (firUpdate_fits emu hf).1 ▸ hk
    rw [memRead_firUpdate_h emu hf hk', tapUpdate_of_zero _ (.inr ((lineZero_iff_firXl hf).1 hz k hk'))]
  calc firUpdate c emu f = { f with h := (firUpdate c emu f).h } := rfl
    _ = f := by rw [htaps]

/-- A zero pushed over a zero line. -/
theorem firPush_zero_lineZero {c : Config} {f : FirCells} (hf : f.Fits c) (hz : f.LineZero c) :
    (firPush c 0 f).LineZero c := by
  obtain ⟨hnewest, hothers, -⟩ := firPush_pushed 0 hf
  intro j hj
  by_cases hcur : j = f.wc
  · rw [hcur, hnewest]
  · rw [hothers j hcur, hz j hj]

/-- One sample of zero input over a zero line: the error is the desired sample, and only the cursor can move. -/
theorem lmsStep_of_lineZero {c : Config} {f : FirCells} (d : Sample) (hf : f.Fits c) (hz : f.LineZero c) :
    lmsStep c 0 d f = (d, firPush c 0 f) := by
  have herr : firErr d (firPredict c f) = d := by
    rw [firPredict_of_lineZero hf hz]
    exact sub16_zero_right d
  rw [lmsStep]
  simp only [herr, firUpdate_of_lineZero (firScale c d) hf hz]

/-- Desired samples paired with zero input. -/
def zeroInput (ds : List Sample) : List (Sample × Sample) := ds.map fun d => ((0 : Sample), d)

@[simp] theorem zeroInput_inputs (ds : List Sample) : (zeroInput ds).map Prod.fst = List.replicate ds.length 0 := by
  induction ds with
  | nil => rfl
  | cons d ds ih => exact congrArg (List.cons 0) ih

theorem lmsFeed_zeroInput_of_lineZero {c : Config} {f : FirCells} (ds : List Sample) (hf : f.Fits c)
    (hz : f.LineZero c) :
    (lmsFeed c (zeroInput ds) f).1 = ds ∧ (lmsFeed c (zeroInput ds) f).2.h = f.h ∧
      (lmsFeed c (zeroInput ds) f).2.LineZero c := by
  induction ds generalizing f with
  | nil => exact ⟨rfl, rfl, hz⟩
  | cons d ds ih =>
    obtain ⟨herrs, htaps, hline⟩ := ih (firPush_fits 0 hf) (firPush_zero_lineZero hf hz)
    have hfeed : lmsFeed c (zeroInput (d :: ds)) f =
        (d :: (lmsFeed c (zeroInput ds) (firPush c 0 f)).1, (lmsFeed c (zeroInput ds) (firPush c 0 f)).2) := by
      rw [zeroInput, List.map_cons, lmsFeed, lmsStep_of_lineZero d hf hz]
      rfl
    rw [hfeed]
    exact ⟨congrArg (List.cons d) herrs, htaps, hline⟩

/-- After N_TAPS zeros every age below N_TAPS is one of them. -/
theorem lmsFeed_zeroInput_lineZero {c : Config} {f : FirCells} {ds : List Sample} (hf : f.Fits c)
    (hlen : c.nTaps ≤ ds.length) : (lmsFeed c (zeroInput ds) f).2.LineZero c := by
  rw [lineZero_iff_firXl (lmsFeed_fits _ hf)]
  intro k hk
  rw [firXl_lmsFeed hf _ hk, firXl_pushAll hf _ hk, zeroInput_inputs, List.length_replicate, if_pos (by omega),
    List.reverse_replicate]
  exact memRead_replicate_zero _ _

/-- Settles O33: by induction on the desired samples from a zero line, and by age from any line. -/
theorem zeroInputLeavesTheDesiredSignal : Obligations.ZeroInputLeavesTheDesiredSignal :=
  ⟨fun _ _ ds hf hz => ⟨firPredict_of_lineZero hf hz, lmsFeed_zeroInput_of_lineZero ds hf hz⟩,
    fun _ _ _ hf hlen => lmsFeed_zeroInput_lineZero hf hlen⟩

end Sys2Proof.Proofs

/-! The delay buffer chapter (41_delay_buffer.md): one rule per sub-operation of a block (shift, load, update), the history
of samples the manager was given, and what DRBUF holds of it after every block. -/

namespace Sys2Proof.Proofs

open Sys2Proof Sys2Proof.Machine

/-! ### The sub-operations of one block -/

/-- A loop that writes ascending cells from `off` on, each value of which depends only on cells not yet written: every
cell written holds the value computed from the space as it stood before the loop. -/
theorem memRead_loopUp_memWrite_ascending (off : Nat) (v : Nat → List Sample → Sample) {n : Nat} {sp : List Sample}
    (hn : off + n ≤ sp.length)
    (hv : ∀ i b, (∀ a, off + i ≤ a → memRead b a = memRead sp a) → v i b = v i sp) (a : Nat) :
    memRead (loopUp n (fun i b => memWrite b (off + i) (v i b)) sp) a =
      if off ≤ a ∧ a < off + n then v (a - off) sp else memRead sp a := by
  induction n generalizing a with
  | zero => exact (if_neg (by omega)).symm
  | succ n ih =>
    have hlen : (loopUp n (fun i b => memWrite b (off + i) (v i b)) sp).length = sp.length :=
      loopUp_rule (fun _ (b : List Sample) => b.length = sp.length) n _ sp rfl fun _ b _ hb => by simpa using hb
    have hread := ih (by omega)
    have hvalue : v n (loopUp n (fun i b => memWrite b (off + i) (v i b)) sp) = v n sp :=
      hv n _ fun k hk => (hread k).trans (if_neg (by omega))
    rw [loopUp_succ, hvalue]
    by_cases ha : a = off + n
    · rw [ha, memRead_memWrite_same _ _ _ (by omega), if_pos (by omega), Nat.add_sub_cancel_left]
    · rw [memRead_memWrite_other _ _ _ _ ha, hread a]
      exact if_congr (by omega) rfl rfl

/-- 41_delay_buffer.md R152: move `i` reads cell N + i, which no earlier move wrote, however the ranges overlap. -/
theorem memRead_dlyShift {c : Config} {dr : List Sample} (hdr : dr.length = c.drLen) (a : Nat) :
    memRead (dlyShift c dr) a = if a < c.delay then memRead dr (c.n + a) else memRead dr a := by
  have hinside : 0 + c.delay ≤ dr.length := by rw [hdr, Config.drLen]; omega
  have hcopy := memRead_loopUp_memWrite_ascending 0 (fun i b => memRead b (c.n + i)) hinside
    (fun i _ hunwritten => hunwritten (c.n + i) (by omega)) a
  simpa [dlyShift] using hcopy

/-- 41_delay_buffer.md R153: the value of every cell comes from the block alone. -/
theorem memRead_dlyLoad {c : Config} (s : List Sample) {dr : List Sample} (hdr : dr.length = c.drLen) (a : Nat) :
    memRead (dlyLoad c s dr) a = if c.delay ≤ a ∧ a < c.drLen then memRead s (a - c.delay) else memRead dr a :=
  memRead_loopUp_memWrite_ascending c.delay (fun i _ => memRead s i) hdr.ge (fun _ _ _ => rfl) a

/-- 41_delay_buffer.md R154: below DELAY the look-back the shift brought, from DELAY on the block. -/
theorem memRead_dlyUpdate {c : Config} (s : List Sample) {dr : List Sample} (hdr : dr.length = c.drLen) {a : Nat}
    (ha : a < c.drLen) :
    memRead (dlyUpdate c s dr) a = if a < c.delay then memRead dr (c.n + a) else memRead s (a - c.delay) := by
  rw [dlyUpdate, memRead_dlyLoad s ((dlyShift_length c dr).trans hdr)]
  by_cases hlook : a < c.delay
  · rw [if_neg (by omega), memRead_dlyShift hdr, if_pos hlook, if_pos hlook]
  · rw [if_pos ⟨by omega, ha⟩, if_neg hlook]

/-- Settles O35: the moves ascend, so each reads what stood there before the shift. -/
theorem shiftMovesTheLookBackForward : Obligations.ShiftMovesTheLookBackForward :=
  fun c dr _ hdr => ⟨(dlyShift_length c dr).trans hdr, memRead_dlyShift hdr⟩

/-- Settles O36, from the rule of the load. -/
theorem loadFillsTheCurrentWindow : Obligations.LoadFillsTheCurrentWindow :=
  fun c s dr hdr => ⟨(dlyLoad_length c s dr).trans hdr, memRead_dlyLoad s hdr⟩

/-! ### The history of samples -/

theorem historyAt_of_neg (blocks : List (List Sample)) {t : Int} (ht : t < 0) : historyAt blocks t = 0 := if_pos ht

theorem historyAt_natCast (blocks : List (List Sample)) (t : Nat) :
    historyAt blocks (t : Int) = memRead blocks.flatten t := by
  rw [historyAt, if_neg (Int.not_lt.2 (Int.natCast_nonneg t)), Int.toNat_natCast]

theorem flatten_length_of_blocks {blocks : List (List Sample)} {n : Nat} (hlen : ∀ b ∈ blocks, b.length = n) :
    blocks.flatten.length = blocks.length * n := by
  rw [List.length_flatten, List.map_congr_left hlen, List.map_const', List.sum_replicate, smul_eq_mul]

/-- A later block changes no sample of an earlier time. -/
theorem historyAt_append_earlier {blocks : List (List Sample)} (last : List Sample) {t : Int}
    (ht : t < blocks.flatten.length) : historyAt (blocks ++ [last]) t = historyAt blocks t := by
  by_cases hneg : t < 0
  · rw [historyAt_of_neg _ hneg, historyAt_of_neg _ hneg]
  · obtain ⟨k, rfl⟩ := Int.eq_ofNat_of_zero_le (Int.not_lt.1 hneg)
    rw [historyAt_natCast, historyAt_natCast, List.flatten_concat]
    exact List.getD_append _ _ _ _ (Int.ofNat_lt.1 ht)

/-- The samples of the last block follow those of the blocks before it. -/
theorem historyAt_append_last (blocks : List (List Sample)) (last : List Sample) (i : Nat) :
    historyAt (blocks ++ [last]) ((blocks.flatten.length + i : Nat) : Int) = memRead last i := by
  rw [historyAt_natCast, List.flatten_concat, memRead, List.getD_append_right _ _ _ _ (Nat.le_add_right _ _),
    Nat.add_sub_cancel_left, memRead]

/-! ### What DRBUF holds of the history -/

theorem drbufAfter_concat (c : Config) (blocks : List (List Sample)) (last : List Sample) :
    drbufAfter c (blocks ++ [last]) = dlyUpdate c last (drbufAfter c blocks) := by
  rw [drbufAfter, List.foldl_concat, drbufAfter]

@[simp] theorem drbufAfter_length (c : Config) (blocks : List (List Sample)) :
    (drbufAfter c blocks).length = c.drLen := by
  induction blocks using List.reverseRecOn with
  | nil => exact List.length_replicate
  | append_singleton blocks last ih => rw [drbufAfter_concat, dlyUpdate_length, ih]

/-- The invariant behind 41_delay_buffer.md R155: at every block boundary DRBUF holds the newest DELAY + N samples in
order of time, those before the first being 0. -/
theorem memRead_drbufAfter {c : Config} {blocks : List (List Sample)} (hlen : ∀ b ∈ blocks, b.length = c.n) {a : Nat}
    (ha : a < c.drLen) :
    memRead (drbufAfter c blocks) a =
      historyAt blocks (((blocks.length * c.n + a : Nat) : Int) - (c.drLen : Int)) := by
  induction blocks using List.reverseRecOn generalizing a with
  | nil =>
    rw [historyAt_of_neg _ (by simpa using ha)]
    exact memRead_replicate_zero _ _
  | append_singleton blocks last ih =>
    have hearlier : ∀ b ∈ blocks, b.length = c.n := fun b hb => hlen b (List.mem_append_left _ hb)
    have hflat : blocks.flatten.length = blocks.length * c.n := flatten_length_of_blocks hearlier
    have hdr : c.drLen = c.delay + c.n := rfl
    rw [drbufAfter_concat, memRead_dlyUpdate last (drbufAfter_length c blocks) ha, List.length_append,
      List.length_singleton, Nat.succ_mul]
    by_cases hlook : a < c.delay
    · rw [if_pos hlook, ih hearlier (by omega), historyAt_append_earlier last (by omega)]
      congr 1
      omega
    · rw [if_neg hlook, ← historyAt_append_last blocks last]
      congr 1
      omega

/-- Settles O37: both windows are parts of DRBUF, read by its invariant. -/
theorem slidingWindowHoldsTheDelayedSamples : Obligations.SlidingWindowHoldsTheDelayedSamples := by
  unfold Obligations.SlidingWindowHoldsTheDelayedSamples
  intro c before last _ hbefore hlast i hi
  have hlen : ∀ b ∈ before ++ [last], b.length = c.n := by
    simpa [or_imp, forall_and] using ⟨hbefore, hlast⟩
  have hdr : c.drLen = c.delay + c.n := rfl
  have hcount : (before ++ [last]).length * c.n = before.length * c.n + c.n := by
    rw [List.length_append, List.length_singleton, Nat.succ_mul]
  obtain ⟨hdly, hcur⟩ := windowIndexes_lt hi
  refine ⟨?cur, ?dly⟩
  case cur =>
    rw [curWindow, memRead_vecOf _ _ _ hi, memRead_drbufAfter hlen hcur, hcount, curIndex]
    congr 1
    omega
  case dly =>
    rw [dlyWindow, memRead_vecOf _ _ _ hi, memRead_drbufAfter hlen hdly, hcount, dlyIndex]
    congr 1
    omega

end Sys2Proof.Proofs

/-! The carrier chapter (42_carrier.md): the phase after any number of advances and its period (R168, R172), PHASE_INC
as a truncated ratio (R167, R173), and the two carriers as entries of the sine table (R169, R170). -/

namespace Sys2Proof.Proofs

open Sys2Proof Sys2Proof.Machine

/-! ### The phase after a number of advances -/

theorem phaseAfter_zero {c : Config} {p : Nat} (hp : p < c.fullTurn) : phaseAfter c p 0 = p := by
  rw [phaseAfter, Nat.zero_mul, Nat.add_zero, Nat.mod_eq_of_lt hp]

/-- Wrapping at every advance loses nothing: the wrapped sums differ by whole turns. -/
theorem phaseAdv_phaseAfter (c : Config) (p k : Nat) : phaseAdv c (phaseAfter c p k) = phaseAfter c p (k + 1) := by
  rw [phaseAdv, phaseAfter, phaseAfter, Nat.mod_add_mod, Nat.add_assoc, Nat.succ_mul]

theorem phaseAdv_iterate {c : Config} {p : Nat} (hp : p < c.fullTurn) (k : Nat) :
    (phaseAdv c)^[k] p = phaseAfter c p k := by
  induction k with
  | zero => rw [Function.iterate_zero_apply, phaseAfter_zero hp]
  | succ k ih => rw [Function.iterate_succ_apply', ih, phaseAdv_phaseAfter]

/-- Settles O38, by induction on the number of advances. -/
theorem phaseAfterKAdvancesIsExact : Obligations.PhaseAfterKAdvancesIsExact :=
  fun _ _ k hp => phaseAdv_iterate hp k

/-! ### The period -/

/-- The phase is back where it was when the advances add up to whole turns. -/
theorem phaseAfter_eq_self_iff {c : Config} {p : Nat} (hp : p < c.fullTurn) (k : Nat) :
    phaseAfter c p k = p ↔ c.fullTurn ∣ k * phaseInc c := by
  have hwrap : p % c.fullTurn = p := Nat.mod_eq_of_lt hp
  calc phaseAfter c p k = p ↔ p + k * phaseInc c ≡ p [MOD c.fullTurn] := by rw [phaseAfter, Nat.ModEq, hwrap]
    _ ↔ c.fullTurn ∣ k * phaseInc c := Nat.add_modEq_left_iff

/-- Of a full turn only the part it does not share with the increment is left for the number of advances to divide. -/
theorem fullTurn_dvd_mul_phaseInc_iff (c : Config) (k : Nat) :
    c.fullTurn ∣ k * phaseInc c ↔ c.fullTurn / Nat.gcd c.fullTurn (phaseInc c) ∣ k := by
  have hshared : 0 < Nat.gcd c.fullTurn (phaseInc c) := Nat.gcd_pos_of_pos_left _ (fullTurn_pos c)
  rw [Nat.div_dvd_iff_dvd_mul (Nat.gcd_dvd_left _ _) hshared, Nat.mul_comm, Nat.dvd_gcd_mul_iff_dvd_mul, Nat.mul_comm]

/-- Settles O39: the carriers are read at the phase, so they return with it. -/
theorem phaseRepeatsWithItsExactPeriod : Obligations.PhaseRepeatsWithItsExactPeriod := by
  unfold Obligations.PhaseRepeatsWithItsExactPeriod
  intro c p k hp
  have hperiod : (phaseAdv c)^[k] p = p ↔ c.fullTurn / Nat.gcd c.fullTurn (phaseInc c) ∣ k := by
    rw [phaseAdv_iterate hp, phaseAfter_eq_self_iff hp, fullTurn_dvd_mul_phaseInc_iff]
  exact ⟨hperiod, fun hk => congrArg (carrierTick c) (hperiod.2 hk)⟩

/-! ### The increment -/

theorem phaseInc_of_mulFirst {c : Config} (ho : c.incOrder = .mulFirst) :
    phaseInc c = 2 ^ c.phaseW * c.toneFreq / c.sampleRate % 2 ^ c.phaseW := by
  rw [phaseInc, ho, Config.fullTurn]

theorem phaseInc_of_divFirst {c : Config} (ho : c.incOrder = .divFirst) :
    phaseInc c = 2 ^ c.phaseW / c.sampleRate * c.toneFreq % 2 ^ c.phaseW := by
  rw [phaseInc, ho, Config.fullTurn]

theorem phaseInc_lt (c : Config) : phaseInc c < 2 ^ c.phaseW := by
  have hturn : 0 < 2 ^ c.phaseW := Nat.two_pow_pos _
  cases ho : c.incOrder with
  | mulFirst => exact phaseInc_of_mulFirst ho ▸ Nat.mod_lt _ hturn
  | divFirst => exact phaseInc_of_divFirst ho ▸ Nat.mod_lt _ hturn

theorem phaseInc_of_mulFirst_quotient {c : Config} {q : Nat} (ho : c.incOrder = .mulFirst)
    (hlo : q * c.sampleRate ≤ 2 ^ c.phaseW * c.toneFreq) (hhi : 2 ^ c.phaseW * c.toneFreq < (q + 1) * c.sampleRate) :
    phaseInc c = q % 2 ^ c.phaseW := by
  rw [phaseInc_of_mulFirst ho, Nat.div_eq_of_lt_le hlo hhi]

theorem phaseInc_of_divFirst_quotient {c : Config} {q : Nat} (ho : c.incOrder = .divFirst)
    (hlo : q * c.sampleRate ≤ 2 ^ c.phaseW) (hhi : 2 ^ c.phaseW < (q + 1) * c.sampleRate) :
    phaseInc c = q * c.toneFreq % 2 ^ c.phaseW := by
  rw [phaseInc_of_divFirst ho, Nat.div_eq_of_lt_le hlo hhi]

/-- One SAMPLE_RATE more of frequency is one whole turn more per sample (42_carrier.md R173). -/
theorem phaseInc_add_sampleRate {c : Config} (hfs : 0 < c.sampleRate) (ho : c.incOrder = .mulFirst) :
    phaseInc { c with toneFreq := c.toneFreq + c.sampleRate } = phaseInc c := by
  have ho' : Config.incOrder { c with toneFreq := c.toneFreq + c.sampleRate } = .mulFirst := ho
  rw [phaseInc_of_mulFirst ho, phaseInc_of_mulFirst ho', Nat.mul_add, Nat.add_mul_div_right _ _ hfs, Nat.add_mod_right]

/-- Settles O40, order by order; the rule's examples by evaluation. -/
theorem incrementIsTheTruncatedRatioAndAliases : Obligations.IncrementIsTheTruncatedRatioAndAliases := by
  unfold Obligations.IncrementIsTheTruncatedRatioAndAliases
  refine ⟨fun c hc => ?ratio, fun c hw => ?examples⟩
  case ratio =>
    obtain ⟨-, -, -, hfs, -⟩ := (Config.wf_iff c).1 hc
    exact ⟨phaseInc_lt c, fun ho _ => phaseInc_of_mulFirst_quotient ho, fun ho _ => phaseInc_of_divFirst_quotient ho,
      phaseInc_add_sampleRate hfs⟩
  case examples =>
    refine ⟨?_, ?_, ?_, ?_⟩ <;> intro hfs hf ho
    · norm_num [phaseInc_of_mulFirst ho, hw, hfs, hf]
    · norm_num [phaseInc_of_divFirst ho, hw, hfs, hf]
    · norm_num [phaseInc_of_mulFirst ho, hw, hfs, hf]
    · norm_num [phaseInc_of_divFirst ho, hw, hfs, hf]

/-! ### The carriers -/

theorem tableIndex_mul_add (c : Config) (j : Nat) {r : Nat} (hr : r < 2 ^ sineShift c) :
    tableIndex c (j * 2 ^ sineShift c + r) = j := by
  rw [tableIndex, Nat.mul_comm, Nat.mul_add_div (Nat.two_pow_pos _), Nat.div_eq_of_lt hr, Nat.add_zero]

/-- Every phase with top bits `j` reads entry `j`, whatever its low part. -/
theorem sinAt_mul_add (c : Config) (j : Nat) {r : Nat} (hr : r < 2 ^ sineShift c) :
    sinAt c (j * 2 ^ sineShift c + r) = memRead c.sine j := by
  rw [sinAt, tableIndex_mul_add c j hr]

/-- A quarter turn is a whole number of phases because PHASE_W is at least 2. -/
theorem fullTurn_eq_four_quarterTurns {c : Config} (hw : 2 ≤ c.phaseW) : c.fullTurn = 4 * quarterTurn c := by
  rw [Config.fullTurn, quarterTurn, show 4 = 2 ^ 2 from rfl, ← Nat.pow_add, Nat.add_sub_cancel' hw]

theorem cosAt_of_lt {c : Config} {q : Nat} (hw : 2 ≤ c.phaseW) (hq : q < 3 * quarterTurn c) :
    cosAt c q = sinAt c (q + quarterTurn c) := by
  have hturn := fullTurn_eq_four_quarterTurns hw
  rw [cosAt, Nat.mod_eq_of_lt (by omega)]

theorem cosAt_of_ge {c : Config} {q : Nat} (hw : 2 ≤ c.phaseW) (hlast : 3 * quarterTurn c ≤ q)
    (hq : q < c.fullTurn) : cosAt c q = sinAt c (q - 3 * quarterTurn c) := by
  have hturn := fullTurn_eq_four_quarterTurns hw
  have hwrap : q + quarterTurn c = c.fullTurn + (q - 3 * quarterTurn c) := by omega
  rw [cosAt, hwrap, Nat.add_mod_left, Nat.mod_eq_of_lt (by omega)]

/-- Settles O41: the sine by its top bits, the cosine by whether the quarter turn ahead wraps. -/
theorem carriersAreTableEntriesOfTheTopBits : Obligations.CarriersAreTableEntriesOfTheTopBits := by
  unfold Obligations.CarriersAreTableEntriesOfTheTopBits
  intro c hc
  obtain ⟨-, -, -, -, hw, -⟩ := (Config.wf_iff c).1 hc
  refine ⟨fun j r _ hr => sinAt_mul_add c j hr, fun q hq => ?_⟩
  split_ifs with hfirst
  · exact cosAt_of_lt hw hfirst
  · exact cosAt_of_ge hw (Nat.le_of_not_lt hfirst) hq

end Sys2Proof.Proofs

/-! The modulator chapter (43_modulator.md): the cells one symbol leaves (R189 to R193), the agreement of SIGN with the
sign of ICOEF over every step (R195), and the cycle 0, 0, 1, 1 (R194). -/

namespace Sys2Proof.Proofs

open Sys2Proof Sys2Proof.Machine

/-! ### The cells of one symbol -/

/-- ICOEF after `k` samples of the symbol that starts in `s`: each sample leaves the coefficient it used (R191). -/
def icoefAfter (s : State) : Nat → Sample
  | 0 => s.icoef
  | k + 1 => s.symbolCoef k

/-- The modulator's cells after `k` samples of the symbol that starts in `s`. -/
def cellsAfter (s : State) (k : Nat) : ModCells where
  sign := if s.nextBit then s.sign else !s.sign
  testOut := s.nextBit
  phase := phaseAfter s.cfg s.phase k
  icoef := icoefAfter s k
  bitcur := nextCursor s.bitcur s.cfg.bitsLen

theorem symbolCoef_of_bit_one {s : State} (hb : s.nextBit = true) (k : Nat) : s.symbolCoef k = s.icoef := by
  rw [State.symbolCoef, if_pos hb]

theorem symbolCoef_of_bit_zero {s : State} (hb : s.nextBit = false) (k : Nat) :
    s.symbolCoef k = memRead (if s.sign then s.cfg.shapeB else s.cfg.shapeA) k := by
  cases hsign : s.sign <;> simp [State.symbolCoef, hb, hsign]

/-- On bit 1 every sample has left ICOEF at its value at the symbol's start. -/
theorem icoefAfter_of_bit_one {s : State} (hb : s.nextBit = true) (k : Nat) : icoefAfter s k = s.icoef := by
  cases k with
  | zero => rfl
  | succ k => exact symbolCoef_of_bit_one hb k

/-- A block has a last sample, and its coefficient is the one that stays. -/
theorem icoefAfter_block {s : State} (hs : s.shapeOk = true) : icoefAfter s s.cfg.n = s.symbolCoef (s.cfg.n - 1) := by
  obtain ⟨-, hn⟩ := Config.two_n (State.shapeOk_wf hs)
  obtain ⟨k, hk⟩ := Nat.exists_eq_succ_of_ne_zero hn.ne'
  rw [hk]; rfl

/-- MOD.COEF in the course of a symbol: SEL is SIGN as the symbol found it. -/
theorem modCoef_icoefAfter (s : State) (k : Nat) :
    modCoef s.cfg (!s.nextBit) s.sign k (icoefAfter s k) = s.symbolCoef k := by
  cases hb : s.nextBit with
  | true => rw [symbolCoef_of_bit_one hb, icoefAfter_of_bit_one hb]; rfl
  | false => rw [State.symbolCoef, hb]; rfl

/-- The symbol's start and its decision leave the cells of no sample yet. -/
theorem cellsAfter_zero {s : State} (hp : s.phase < s.cfg.fullTurn) :
    { s.modCells with
      bitcur := nextCursor s.bitcur s.cfg.bitsLen
      testOut := s.nextBit
      sign := toggleSign (!s.nextBit) s.sign } = cellsAfter s 0 := by
  rw [cellsAfter, phaseAfter_zero hp]
  cases s.nextBit <;> rfl

theorem modSample_cellsAfter (s : State) (k : Nat) :
    (modSample s.cfg (!s.nextBit) s.sign k (cellsAfter s k)).2 = cellsAfter s (k + 1) := by
  have hphase : phaseAdv s.cfg (cellsAfter s k).phase = phaseAfter s.cfg s.phase (k + 1) := phaseAdv_phaseAfter ..
  have hcoef : modCoef s.cfg (!s.nextBit) s.sign k (cellsAfter s k).icoef = s.symbolCoef k := modCoef_icoefAfter s k
  rw [modSample_state, hphase, hcoef]
  rfl

/-- One symbol, by the loop over its samples. -/
theorem modBlock_cells {s : State} (hp : s.phase < s.cfg.fullTurn) :
    (modBlock s.cfg s.modCells).2 = cellsAfter s s.cfg.n := by
  rw [modBlock_eq]
  refine loopCollect_rule (fun k _ m => m = cellsAfter s k) s.cfg.n _ _ ?start fun k _ m _ hm => ?sample
  case start => exact cellsAfter_zero hp
  case sample => rw [hm]; exact modSample_cellsAfter s k

/-- PROCESS.MOD writes the modulator's cells and OUTBUF. -/
theorem exec_processMod {s : State} (hs : s.shapeOk = true) (hm : s.mode = .modulate) :
    exec .processMod s =
      .next { s.withMod (cellsAfter s s.cfg.n) with outbuf := (processBlock pipeMod s).outbuf } := by
  obtain ⟨-, -, -, -, -, hphase, -⟩ := (State.shapeOk_iff s).1 hs
  calc exec .processMod s = .next (processBlock pipeMod s) := if_pos hm
    _ = .next { s.withMod (modBlock s.cfg s.modCells).2 with outbuf := (processBlock pipeMod s).outbuf } := rfl
    _ = _ := by rw [modBlock_cells hphase]

/-! ### SIGN and the sign of ICOEF -/

/-- A symbol ends in agreement: on bit 1 neither cell moves; on bit 0 SIGN toggles and ICOEF comes to rest at the last
entry of the table whose end the new SIGN stands for. -/
theorem symbol_signAgrees {s : State} (hends : s.cfg.TablesEndRight) (hs : s.SignAgrees) :
    (s.symbolCoef (s.cfg.n - 1)).toInt < 0 ↔ (if s.nextBit then s.sign else !s.sign) = true := by
  obtain ⟨hA, hB⟩ := hends
  cases hb : s.nextBit with
  | true => rw [symbolCoef_of_bit_one hb]; exact hs
  | false =>
    rw [symbolCoef_of_bit_zero hb]
    cases s.sign with
    | false => simpa using hA
    | true => simpa using hB.le

/-- PROCESS.MOD keeps the agreement by its symbol; no other operation writes SIGN or ICOEF (R196). -/
theorem exec_signAgrees {i : Instr} {s t : State} (h : exec i s = .next t) (hshape : s.shapeOk = true)
    (hends : s.cfg.TablesEndRight) (hs : s.SignAgrees) : t.SignAgrees := by
  by_cases hi : i = .processMod
  · subst hi
    obtain ⟨hmode, -⟩ := whenMode_next h
    rw [exec_processMod hshape hmode] at h
    obtain rfl := Host.Outcome.next.inj h
    show (icoefAfter s s.cfg.n).toInt < 0 ↔ _
    rw [icoefAfter_block hshape]
    exact symbol_signAgrees hends hs
  · obtain ⟨-, -, -, -, -, hmod, -⟩ := onlyTheNamedOperationsWriteEachCell i s t h
    obtain ⟨hsign, hicoef, -⟩ := hmod hi
    rwa [State.SignAgrees, hsign, hicoef]

/-- Reset leaves ICOEF at 0x7FFF and SIGN at 0. -/
theorem resetOf_signAgrees (c : Config) (inb outb : List Sample) : (State.resetOf c inb outb).SignAgrees := by
  show (0x7FFF : Sample).toInt < 0 ↔ false = true
  decide

/-- Settles O58, by the cases of a step: the commands by `exec_signAgrees`, reset by its values, and nothing else
writes the two cells. -/
theorem signAndCoefficientStayInAgreement : Obligations.SignAndCoefficientStayInAgreement := by
  unfold Obligations.SignAndCoefficientStayInAgreement
  refine ⟨resetOf_signAgrees, fun s t hends hs hstep => ?_⟩
  obtain ⟨hshape, -⟩ := step_next_shaped hstep
  cases step_did hstep with
  | command _ _ _ _ _ _ _ _ _ hx ht => rw [ht, holdEvents_eq]; exact (exec_signAgrees hx hshape hends hs :)
  | claim _ _ _ _ _ hx ht => rw [ht]; exact (exec_signAgrees hx hshape hends hs :)
  | reset _ _ _ _ ht => rw [ht]; exact resetOf_signAgrees s.cfg s.inbuf s.outbuf
  | idle _ ht => rw [ht]; exact hs
  | held _ _ _ _ _ _ ht => rw [ht]; exact hs
  | events _ _ _ _ _ ht => rw [ht]; exact hs
  | load _ _ _ _ _ ht => rw [ht]; exact hs
  | read _ _ _ ht => rw [ht]; exact hs
  | claimHeld _ _ _ _ ht => rw [ht]; exact hs

/-! ### The cycle 0, 0, 1, 1 -/

/-- The state before a symbol of the cycle: its cursor, its SIGN, and the configuration the cycle keeps. -/
structure AtSymbol (c : Config) (cursor : Nat) (sign : Bool) (s : State) : Prop where
  shape : s.shapeOk = true
  mode : s.mode = .modulate
  cfg : s.cfg = c
  bitcur : s.bitcur = cursor
  sign : s.sign = sign

theorem AtSymbol.nextBit {c : Config} {k : Nat} {sign : Bool} {s : State} (h : AtSymbol c k sign s) :
    s.nextBit = bitRead c.bits k := by
  rw [State.nextBit, h.cfg, h.bitcur]

/-- On bit 0 the symbol toggles SIGN and reads the table of the SIGN it found. -/
theorem AtSymbol.symbol_of_bit_zero {c : Config} {k : Nat} {sign : Bool} {s : State} (h : AtSymbol c k sign s)
    (hb : bitRead c.bits k = false) :
    ∃ t, exec .processMod s = .next t ∧ AtSymbol c (nextCursor k c.bitsLen) (!sign) t ∧ t.testOut = false ∧
      ∀ j, s.symbolCoef j = memRead (if sign then c.shapeB else c.shapeA) j := by
  have hbit : s.nextBit = false := h.nextBit.trans hb
  have hexec := exec_processMod h.shape h.mode
  obtain ⟨hshape, hmode, rfl, rfl, rfl⟩ := h
  refine ⟨_, hexec, ⟨exec_shapeOk hshape hexec, hmode, rfl, rfl, ?_⟩, hbit, symbolCoef_of_bit_zero hbit⟩
  simp [cellsAfter, hbit]

/-- On bit 1 the symbol holds SIGN and ICOEF. -/
theorem AtSymbol.symbol_of_bit_one {c : Config} {k : Nat} {sign : Bool} {s : State} (h : AtSymbol c k sign s)
    (hb : bitRead c.bits k = true) :
    ∃ t, exec .processMod s = .next t ∧ AtSymbol c (nextCursor k c.bitsLen) sign t ∧ t.testOut = true ∧
      t.icoef = s.icoef ∧ ∀ j, s.symbolCoef j = s.icoef := by
  have hbit : s.nextBit = true := h.nextBit.trans hb
  have hexec := exec_processMod h.shape h.mode
  obtain ⟨hshape, hmode, rfl, rfl, rfl⟩ := h
  refine ⟨_, hexec, ⟨exec_shapeOk hshape hexec, hmode, rfl, rfl, ?_⟩, hbit, icoefAfter_of_bit_one hbit _,
    symbolCoef_of_bit_one hbit⟩
  simp [cellsAfter, hbit]

/-- Settles O59, symbol by symbol; BITS_LEN is 4, so the cursor is back at 0 after the fourth. -/
theorem signTogglesOnTheTwoZeroBitsOfTheCycle : Obligations.SignTogglesOnTheTwoZeroBitsOfTheCycle := by
  unfold Obligations.SignTogglesOnTheTwoZeroBitsOfTheCycle
  intro s hshape hmode hbits hcur hsign
  obtain ⟨-, -, -, -, -, -, -, -, -, hlen, -⟩ := (Config.wf_iff _).1 (State.shapeOk_wf hshape)
  have hfour : s.cfg.bitsLen = 4 := by rw [← hlen, hbits]; rfl
  have h₀ : AtSymbol s.cfg 0 false s := ⟨hshape, hmode, rfl, hcur, hsign⟩
  obtain ⟨t₁, hx₁, h₁, hout₁, hcoef₀⟩ := h₀.symbol_of_bit_zero (by rw [hbits]; rfl)
  rw [hfour] at h₁
  obtain ⟨t₂, hx₂, h₂, hout₂, hcoef₁⟩ := h₁.symbol_of_bit_zero (by rw [hbits]; rfl)
  rw [hfour] at h₂
  obtain ⟨t₃, hx₃, h₃, hout₃, hheld₃, hcoef₂⟩ := h₂.symbol_of_bit_one (by rw [hbits]; rfl)
  rw [hfour] at h₃
  obtain ⟨t₄, hx₄, h₄, hout₄, -, hcoef₃⟩ := h₃.symbol_of_bit_one (by rw [hbits]; rfl)
  rw [hfour] at h₄
  refine ⟨t₁, t₂, t₃, t₄, hx₁, hx₂, hx₃, hx₄, ?signs, ?testOuts,
    fun j => ⟨hcoef₀ j, hcoef₁ j, hcoef₂ j, (hcoef₃ j).trans hheld₃⟩, h₄.shape, h₄.mode, h₄.cfg, h₄.bitcur, h₄.sign⟩
  case signs => rw [h₁.sign, h₂.sign, h₃.sign, h₄.sign]; rfl
  case testOuts => rw [hout₁, hout₂, hout₃, hout₄]

end Sys2Proof.Proofs

/-! The mode control chapter (44_mode_control.md): what a tick and each event write (R214 to R216), runs of one repeated
operation and the edges that merge in them (R218, R219), the count of steps modulo 4 (R217), and INIT (R212, R213). -/

namespace Sys2Proof.Proofs

open Sys2Proof Sys2Proof.Machine

/-! ### The tick and the events -/

theorem exec_ctrlTick (s : State) : exec .ctrlTick s = .next (ctrlTick s) := rfl

theorem exec_evInc (s : State) : exec .evInc s = .next (latchInc s) := rfl

theorem exec_evDec (s : State) : exec .evDec s = .next (latchDec s) := rfl

/-- Settles O42: exec runs the tick, whose equation is the table's. -/
theorem tickStepsTheModeByTheTable : Obligations.TickStepsTheModeByTheTable :=
  ⟨rfl, fun s => (exec_ctrlTick s).trans (congrArg Host.Outcome.next (ctrlTick_eq s))⟩

/-- Settles O43: each event is its latch. -/
theorem eventsSetTheirOwnFlagOnly : Obligations.EventsSetTheirOwnFlagOnly :=
  ⟨rfl, rfl, fun s => ⟨exec_evInc s, exec_evDec s⟩⟩

/-! ### Runs of operations -/

theorem execAll_append_next {is : List Instr} (js : List Instr) {s t : State} (h : execAll is s = .next t) :
    execAll (is ++ js) s = execAll js t := by
  induction is generalizing s with
  | nil => cases h; rfl
  | cons i is ih =>
    obtain ⟨u, hi, his⟩ := execAll_cons_inv h
    rw [List.cons_append, execAll_cons_next _ hi, ih his]

/-- An operation that leaves alone what it has just done: any positive number of it does what one does. -/
theorem execAll_replicate_succ {i : Instr} {s t : State} (n : Nat) (h : exec i s = .next t)
    (hagain : exec i t = .next t) : execAll (List.replicate (n + 1) i) s = .next t := by
  rw [List.replicate_succ, execAll_cons_next _ h]
  induction n with
  | zero => rfl
  | succ n ih => rw [List.replicate_succ, execAll_cons_next _ hagain, ih]

/-- The flag of a line is one bit, not a counter (44_mode_control.md R219). -/
theorem execAll_evIncs (n : Nat) (s : State) : execAll (List.replicate (n + 1) .evInc) s = .next (latchInc s) :=
  execAll_replicate_succ n (exec_evInc s) rfl

theorem execAll_evDecs (n : Nat) (s : State) : execAll (List.replicate (n + 1) .evDec) s = .next (latchDec s) :=
  execAll_replicate_succ n (exec_evDec s) rfl

/-- With no flag set the tick is idle (44_mode_control.md R211, last row). -/
theorem ctrlTick_of_no_flag {s : State} (hinc : s.incPend = false) (hdec : s.decPend = false) : ctrlTick s = s := by
  simp [ctrlTick, consumeInc, consumeDec, hinc, hdec]

theorem execAll_ticks (k : Nat) (s : State) : execAll (List.replicate (k + 1) .ctrlTick) s = .next (ctrlTick s) := by
  refine execAll_replicate_succ k (exec_ctrlTick s) ?_
  rw [exec_ctrlTick, ctrlTick_of_no_flag (s := ctrlTick s) (by rw [ctrlTick_eq]) (by rw [ctrlTick_eq])]

/-! ### Merged and cancelling edges -/

/-- A tick that found a flag set, when what set the flags wrote nothing else and found both clear. -/
theorem ctrlTick_of_flags {s : State} {inc dec : Bool} (hinc : s.incPend = false) (hdec : s.decPend = false)
    (hset : (inc || dec) = true) :
    ctrlTick { s with incPend := inc, decPend := dec } =
      { s with mode := modeTable s.mode inc dec, ind := modeCode (modeTable s.mode inc dec) } := by
  simp only [ctrlTick_eq, hset, if_true, hinc, hdec]

/-- Both flags, MODE and IND are as before. -/
def SameModeControl (s t : State) : Prop :=
  t.incPend = s.incPend ∧ t.decPend = s.decPend ∧ t.mode = s.mode ∧ t.ind = s.ind

theorem SameModeControl.trans {s t u : State} (hst : SameModeControl s t) (htu : SameModeControl t u) :
    SameModeControl s u := by
  obtain ⟨hinc, hdec, hmode, hind⟩ := hst
  obtain ⟨hinc', hdec', hmode', hind'⟩ := htu
  exact ⟨hinc'.trans hinc, hdec'.trans hdec, hmode'.trans hmode, hind'.trans hind⟩

/-- INIT and PROCESS write neither flag, nor MODE, nor IND (44_mode_control.md R218). -/
theorem exec_of_ignoresEvents {i : Instr} {s t : State} (hi : i.ignoresEvents = true) (h : exec i s = .next t) :
    SameModeControl s t := by
  have hne : ∀ j : Instr, j.ignoresEvents = false → i ≠ j := by
    rintro j hj rfl
    exact Bool.noConfusion (hi.symm.trans hj)
  obtain ⟨-, -, -, -, -, -, hinc, hdec, hmodeInd, -⟩ := onlyTheNamedOperationsWriteEachCell i s t h
  have htick : i ≠ .ctrlTick := hne _ rfl
  exact ⟨hinc (hne _ rfl) htick, hdec (hne _ rfl) htick, hmodeInd htick⟩

theorem execAll_of_ignoresEvents {is : List Instr} {s t : State} (his : is.all Instr.ignoresEvents = true)
    (h : execAll is s = .next t) : SameModeControl s t := by
  induction is generalizing s with
  | nil => cases h; exact ⟨rfl, rfl, rfl, rfl⟩
  | cons i is ih =>
    obtain ⟨hi, hrest⟩ : i.ignoresEvents = true ∧ is.all Instr.ignoresEvents = true := by simpa using his
    obtain ⟨u, hu, ht⟩ := execAll_cons_inv h
    exact (exec_of_ignoresEvents hi hu).trans (ih hrest ht)

/-- Settles O45: the edges leave their flags set once, the first tick consumes them, and what comes between touches
neither. -/
theorem mergedEdgesMakeOneStep : Obligations.MergedEdgesMakeOneStep := by
  unfold Obligations.MergedEdgesMakeOneStep
  refine ⟨fun s n k hinc hdec => ⟨?incs, ?decs, ?both⟩, fun _ _ _ => execAll_of_ignoresEvents⟩
  case incs =>
    have hlatched : latchInc s = { s with incPend := true, decPend := false } := by rw [← hdec]; rfl
    rw [execAll_append_next _ (execAll_evIncs n s), execAll_ticks, hlatched, ctrlTick_of_flags hinc hdec rfl]
  case decs =>
    have hlatched : latchDec s = { s with incPend := false, decPend := true } := by rw [← hinc]; rfl
    rw [execAll_append_next _ (execAll_evDecs n s), execAll_ticks, hlatched, ctrlTick_of_flags hinc hdec rfl]
  case both =>
    have hlatched : latchDec (latchInc s) = { s with incPend := true, decPend := true } := rfl
    have hcancel : modeTable s.mode true true = s.mode := by rw [modeTable_eq]; exact modeDown_modeUp s.mode
    rw [List.append_assoc, execAll_append_next _ (execAll_evIncs n s),
      execAll_append_next _ (execAll_evDecs n (latchInc s)), execAll_ticks, hlatched,
      ctrlTick_of_flags hinc hdec rfl, hcancel]

/-! ### The count of steps modulo 4 -/

/-- MODE as a number, with the steps that are pending. -/
def pendingMode (s : State) : Int := (modeNumber s.mode : Int) + s.incPend.toNat - s.decPend.toNat

/-- The increments of a list minus its decrements. -/
def netSteps (is : List Instr) : Int := (is.count .evInc : Int) - is.count .evDec

theorem netSteps_cons (i : Instr) (is : List Instr) : netSteps (i :: is) = netSteps [i] + netSteps is := by
  unfold netSteps
  rw [← List.singleton_append, List.count_append, List.count_append]
  omega

theorem pendingMode_of_no_flag {s : State} (hinc : s.incPend = false) (hdec : s.decPend = false) :
    pendingMode s = modeNumber s.mode := by
  simp [pendingMode, hinc, hdec]

theorem modeNumber_lt (m : Mode) : modeNumber m < 4 := (modeCode m).isLt

/-- A row of the mode table is one step up for a consumed increment and one down for a consumed decrement, modulo 4. -/
theorem modeNumber_modeTable (m : Mode) (inc dec : Bool) :
    (modeNumber (modeTable m inc dec) : Int) % 4 = ((modeNumber m : Int) + inc.toNat - dec.toNat) % 4 := by
  cases m <;> cases inc <;> cases dec <;> rfl

/-- A tick turns pending steps into steps of MODE. -/
theorem pendingMode_ctrlTick (s : State) : pendingMode (ctrlTick s) % 4 = pendingMode s % 4 := by
  have hclear : pendingMode (ctrlTick s) = modeNumber (modeTable s.mode s.incPend s.decPend) := by
    rw [ctrlTick_eq, pendingMode_of_no_flag rfl rfl]
  rw [hclear, modeNumber_modeTable, pendingMode]

theorem pendingMode_latchInc {s : State} (h : s.incPend = false) : pendingMode (latchInc s) = pendingMode s + 1 := by
  simp [pendingMode, h]; omega

theorem pendingMode_latchDec {s : State} (h : s.decPend = false) : pendingMode (latchDec s) = pendingMode s - 1 := by
  simp [pendingMode, h]

/-- The first operation of a spaced list moves MODE with its pending steps by its own step, and what follows it is
spaced from there. -/
theorem exec_of_edgesSpaced {i : Instr} {is : List Instr} {s : State}
    (h : edgesSpaced (i :: is) s.incPend s.decPend = true) :
    ∃ u, exec i s = .next u ∧ edgesSpaced is u.incPend u.decPend = true ∧
      pendingMode u % 4 = (pendingMode s + netSteps [i]) % 4 := by
  cases i with
  | evInc =>
    obtain ⟨hclear, hrest⟩ : s.incPend = false ∧ edgesSpaced is true s.decPend = true := by
      simpa [edgesSpaced] using h
    exact ⟨_, exec_evInc s, hrest, by rw [pendingMode_latchInc hclear]; rfl⟩
  | evDec =>
    obtain ⟨hclear, hrest⟩ : s.decPend = false ∧ edgesSpaced is s.incPend true = true := by
      simpa [edgesSpaced] using h
    exact ⟨_, exec_evDec s, hrest, by rw [pendingMode_latchDec hclear]; rfl⟩
  | ctrlTick =>
    have hrest : edgesSpaced is false false = true := h
    refine ⟨_, exec_ctrlTick s, by rw [ctrlTick_eq]; exact hrest, ?_⟩
    have hnone : netSteps [.ctrlTick] = 0 := rfl
    rw [pendingMode_ctrlTick, hnone, Int.add_zero]
  | init | processPass | processNotch | processTone | processMod => cases h

theorem execAll_pendingMode {is : List Instr} {s : State} (h : edgesSpaced is s.incPend s.decPend = true) :
    ∃ t, execAll is s = .next t ∧ pendingMode t % 4 = (pendingMode s + netSteps is) % 4 := by
  induction is generalizing s with
  | nil => exact ⟨s, rfl, by rw [show netSteps [] = 0 from rfl, Int.add_zero]⟩
  | cons i is ih =>
    obtain ⟨u, hu, hrest, hmoved⟩ := exec_of_edgesSpaced h
    obtain ⟨t, ht, hfinal⟩ := ih hrest
    refine ⟨t, by rw [execAll_cons_next _ hu, ht], ?_⟩
    rw [netSteps_cons]
    omega

/-- Settles O44: nothing is pending at the start, and MODE's number is its own remainder. -/
theorem eventsComposeAdditivelyModuloFour : Obligations.EventsComposeAdditivelyModuloFour := by
  unfold Obligations.EventsComposeAdditivelyModuloFour
  intro is s hinc hdec hspaced
  obtain ⟨t, ht, hsum⟩ := execAll_pendingMode (s := s) (by rw [hinc, hdec]; exact hspaced)
  rw [pendingMode_of_no_flag hinc hdec, netSteps, ← Int.add_sub_assoc] at hsum
  refine ⟨t, ht, hsum, fun htinc htdec => ?_⟩
  rw [pendingMode_of_no_flag htinc htdec] at hsum
  have hlt := modeNumber_lt t.mode
  omega

/-! ### INIT -/

/-- INIT's loop over the whole of a space leaves zeros. -/
theorem loopUp_memWrite_zero_eq {n : Nat} {sp : List Sample} (hn : sp.length = n) :
    loopUp n (fun k b => memWrite b k 0) sp = List.replicate n 0 := by
  have hlen : (loopUp n (fun k b => memWrite b k 0) sp).length = n := (loopUp_memWrite_zero_length n sp).trans hn
  refine space_ext _ _ (by rw [hlen, List.length_replicate]) fun a ha => ?_
  rw [hlen] at ha
  exact ((memRead_loopUp_memWrite_own (fun _ _ => 0) hn.ge a).trans (if_pos ha)).trans (memRead_replicate_zero n a).symm

theorem exec_init {s : State} (hh : s.h.length = s.cfg.nTaps) (hdl : s.dl.length = s.cfg.nTaps) :
    exec .init s = .next { s with
      h := List.replicate s.cfg.nTaps 0, dl := List.replicate s.cfg.nTaps 0, wc := 0 } := by
  rw [exec, execInit, loopUp_memWrite_zero_eq hh, loopUp_memWrite_zero_eq hdl]

/-- Settles O46, by INIT's equation. -/
theorem initZeroesTheEngineAndNothingElse : Obligations.InitZeroesTheEngineAndNothingElse :=
  ⟨rfl, fun _ hh hdl => ⟨_, exec_init hh hdl, rfl, List.length_replicate, List.length_replicate,
    memRead_replicate_zero _, memRead_replicate_zero _⟩⟩

/-- Settles O47: reset leaves the engine as INIT would (70_reset_and_hazards.md R290). -/
theorem initAfterResetChangesNothing : Obligations.InitAfterResetChangesNothing :=
  fun _ _ _ => exec_init List.length_replicate List.length_replicate

end Sys2Proof.Proofs

/-! The block entry chapter (45_block_entry.md): the converters at the two ends of a block (R236, R237), what each of
the four rows of PROCESS leaves (R240 to R244), and the inputs that a row does not look at. -/

namespace Sys2Proof.Proofs

open Sys2Proof Sys2Proof.Machine

/-! ### The converters -/

theorem outbuf_holds_pairs {s : State} (hs : s.shapeOk = true) :
    2 * s.cfg.n = s.cfg.blockLen ∧ s.outbuf.length = s.cfg.blockLen := by
  obtain ⟨hwf, -, -, -, -, -, -, -, hout⟩ := (State.shapeOk_iff s).1 hs
  exact ⟨(Config.two_n hwf).1, hout⟩

theorem reint_outbuf_length {s : State} (hs : s.shapeOk = true) (lout rout : List Sample) :
    (reint s.cfg lout rout s.outbuf).length = s.cfg.blockLen :=
  (reint_length _ _ _ _).trans (outbuf_holds_pairs hs).2

/-- One vector sent to both channels. -/
theorem memRead_reint_both {s : State} (hs : s.shapeOk = true) (ys : List Sample) {j : Nat} (hj : j < s.cfg.n) :
    memRead (reint s.cfg ys ys s.outbuf) (2 * j) = memRead ys j ∧
      memRead (reint s.cfg ys ys s.outbuf) (2 * j + 1) = memRead ys j := by
  obtain ⟨hpairs, hout⟩ := outbuf_holds_pairs hs
  have hread := memRead_reint s.cfg ys ys s.outbuf (hpairs.trans hout.symm).le
  refine ⟨?left, ?right⟩
  case left => rw [hread, if_pos (by omega), if_pos (by omega), Nat.mul_div_cancel_left j two_pos]
  case right => rw [hread, if_pos (by omega), if_neg (by omega), show (2 * j + 1) / 2 = j by omega]

theorem memRead_reint_both_vecOf {s : State} (hs : s.shapeOk = true) (y : Nat → Sample) {j : Nat} (hj : j < s.cfg.n) :
    memRead (reint s.cfg (vecOf s.cfg.n y) (vecOf s.cfg.n y) s.outbuf) (2 * j) = y j ∧
      memRead (reint s.cfg (vecOf s.cfg.n y) (vecOf s.cfg.n y) s.outbuf) (2 * j + 1) = y j :=
  memRead_vecOf _ y _ hj ▸ memRead_reint_both hs (vecOf s.cfg.n y) hj

/-- The converters are inverse to each other: a block taken apart and put together is the block. -/
theorem reint_deint {c : Config} {inb outb : List Sample} (hn : 2 * c.n = c.blockLen) (hin : inb.length = c.blockLen)
    (hout : outb.length = c.blockLen) : reint c (deintLeft c inb) (deintRight c inb) outb = inb := by
  refine space_ext _ _ (by rw [reint_length, hin, hout]) fun a ha => ?_
  rw [reint_length] at ha
  rw [memRead_reint _ _ _ _ (by omega), if_pos (by omega), deintLeft, deintRight, memRead_vecOf _ _ _ (by omega),
    memRead_vecOf _ _ _ (by omega), leftIndex, rightIndex]
  split_ifs with heven
  · congr 1; omega
  · congr 1; omega

theorem reint_zeros {c : Config} {outb : List Sample} (hn : 2 * c.n = c.blockLen) (hout : outb.length = c.blockLen) :
    reint c (List.replicate c.n 0) (List.replicate c.n 0) outb = List.replicate c.blockLen 0 := by
  refine space_ext _ _ (by rw [reint_length, hout, List.length_replicate]) fun a ha => ?_
  rw [reint_length] at ha
  rw [memRead_reint _ _ _ _ (by omega), if_pos (by omega)]
  simp

/-! ### Pass-through and silence -/

/-- PROCESS re-interleaves what its pipeline gives (45_block_entry.md R239). -/
theorem processBlock_of_pipe {pipe : Pipe} {s t : State} {lout rout : List Sample}
    (h : pipe (deintLeft s.cfg s.inbuf) (deintRight s.cfg s.inbuf) s = ((lout, rout), t)) :
    processBlock pipe s = { t with outbuf := reint s.cfg lout rout s.outbuf } := by
  rw [processBlock, h]

theorem pipePass_deint (s : State) :
    pipePass (deintLeft s.cfg s.inbuf) (deintRight s.cfg s.inbuf) s =
      ((deintLeft s.cfg s.inbuf, deintRight s.cfg s.inbuf), s) := by
  have hleft := vecOf_memRead s.cfg.n (deintLeft s.cfg s.inbuf) (vecOf_length _ _)
  have hright := vecOf_memRead s.cfg.n (deintRight s.cfg s.inbuf) (vecOf_length _ _)
  rw [pipePass, hleft, hright]

/-- PROCESS.PASS: the pipeline copies each channel, and the converters undo each other. -/
theorem exec_processPass {s : State} (hs : s.shapeOk = true) (hm : s.mode = .passThrough) :
    exec .processPass s = .next { s with outbuf := s.inbuf } := by
  obtain ⟨hpairs, hout⟩ := outbuf_holds_pairs hs
  obtain ⟨-, -, -, -, -, -, -, hin, -⟩ := (State.shapeOk_iff s).1 hs
  calc exec .processPass s = .next (processBlock pipePass s) := if_pos hm
    _ = .next { s with outbuf := s.inbuf } := by
      rw [processBlock_of_pipe (pipePass_deint s), reint_deint hpairs hin hout]

/-- Settles O49, by the row's equation. -/
theorem passThroughCopiesTheBlock : Obligations.PassThroughCopiesTheBlock := by
  unfold Obligations.PassThroughCopiesTheBlock
  refine ⟨rfl, fun s hs hm => ?_⟩
  obtain ⟨-, -, -, -, -, -, -, hin, -⟩ := (State.shapeOk_iff s).1 hs
  exact ⟨_, exec_processPass hs hm, rfl, hin, fun _ => rfl⟩

theorem pipeTone_of_silence (lin rin : List Sample) {s : State} (hm2 : s.cfg.mode2 = .silence) :
    pipeTone lin rin s = ((List.replicate s.cfg.n 0, List.replicate s.cfg.n 0), s) := by
  rw [pipeTone, hm2, pipeSilence]

/-- PROCESS.TONE where MODE2_BEHAVIOUR names the pipeline of zeros. -/
theorem exec_processTone_of_silence {s : State} (hs : s.shapeOk = true) (hm : s.mode = .tone)
    (hm2 : s.cfg.mode2 = .silence) :
    exec .processTone s = .next { s with outbuf := List.replicate s.cfg.blockLen 0 } := by
  obtain ⟨hpairs, hout⟩ := outbuf_holds_pairs hs
  calc exec .processTone s = .next (processBlock pipeTone s) := if_pos hm
    _ = .next { s with outbuf := List.replicate s.cfg.blockLen 0 } := by
      rw [processBlock_of_pipe (pipeTone_of_silence _ _ hm2), reint_zeros hpairs hout]

/-- Settles O52, by the row's equation. -/
theorem silenceWritesZerosOnly : Obligations.SilenceWritesZerosOnly :=
  ⟨rfl, fun _ hs hm hm2 => ⟨_, exec_processTone_of_silence hs hm hm2, rfl, List.length_replicate,
    memRead_replicate_zero _⟩⟩

/-! ### The tone and the symbol: loops whose running state is known in closed form -/

theorem vecOf_succ {β : Type} (n : Nat) (f : Nat → β) : vecOf (n + 1) f = vecOf n f ++ [f n] := by
  simp [vecOf, List.range_succ]

/-- A loop that is in `cells k` before iteration `k`: its values and its final state. -/
theorem loopCollect_eq_vecOf {α β : Type} {body : Nat → α → β × α} {cells : Nat → α} {value : Nat → β} {n : Nat}
    (hstep : ∀ k, body k (cells k) = (value k, cells (k + 1))) :
    loopCollect n body (cells 0) = (vecOf n value, cells n) := by
  induction n with
  | zero => rfl
  | succ n ih => rw [loopCollect_succ, ih, hstep, vecOf_succ]

/-- Sample `j` of the carrier's block that starts in `s`: it is read after `j + 1` advances (45_block_entry.md R242). -/
def toneSample (s : State) (j : Nat) : Sample := sinAt s.cfg (phaseAfter s.cfg s.phase (j + 1))

theorem carrierTick_phaseAfter (s : State) (k : Nat) :
    (carrierTick s.cfg (phaseAfter s.cfg s.phase k)).1.1 = toneSample s k ∧
      (carrierTick s.cfg (phaseAfter s.cfg s.phase k)).2 = phaseAfter s.cfg s.phase (k + 1) := by
  simp only [carrierTick, phaseAdv_phaseAfter, toneSample, and_self]

/-- The carrier's block, by the loop over its samples. -/
theorem pipeTone_of_tone (lin rin : List Sample) {s : State} (hm2 : s.cfg.mode2 = .tone)
    (hp : s.phase < s.cfg.fullTurn) :
    pipeTone lin rin s = ((vecOf s.cfg.n (toneSample s), vecOf s.cfg.n (toneSample s)),
      { s with phase := phaseAfter s.cfg s.phase s.cfg.n }) := by
  have hloop := loopCollect_eq_vecOf (n := s.cfg.n) (cells := phaseAfter s.cfg s.phase) (value := toneSample s)
    (body := fun _ p => ((carrierTick s.cfg p).1.1, (carrierTick s.cfg p).2))
    fun k => Prod.ext_iff.2 (carrierTick_phaseAfter s k)
  rw [phaseAfter_zero hp] at hloop
  rw [pipeTone, hm2, pipeSine, hloop]

/-- PROCESS.TONE: the carrier's block in both channels. -/
theorem exec_processTone_of_tone {s : State} (hs : s.shapeOk = true) (hm : s.mode = .tone)
    (hm2 : s.cfg.mode2 = .tone) :
    exec .processTone s = .next { s with
      phase := phaseAfter s.cfg s.phase s.cfg.n
      outbuf := reint s.cfg (vecOf s.cfg.n (toneSample s)) (vecOf s.cfg.n (toneSample s)) s.outbuf } := by
  obtain ⟨-, -, -, -, -, hphase, -⟩ := (State.shapeOk_iff s).1 hs
  calc exec .processTone s = .next (processBlock pipeTone s) := if_pos hm
    _ = _ := by rw [processBlock_of_pipe (pipeTone_of_tone _ _ hm2 hphase)]

/-- Settles O51, by the row's equation. -/
theorem toneEmitsTheSineCarrier : Obligations.ToneEmitsTheSineCarrier := by
  unfold Obligations.ToneEmitsTheSineCarrier
  exact ⟨rfl, fun s hs hm hm2 => ⟨_, exec_processTone_of_tone hs hm hm2, rfl, reint_outbuf_length hs _ _,
    fun _ => memRead_reint_both_vecOf hs (toneSample s)⟩⟩

/-- Sample `j` of the symbol that starts in `s` (43_modulator.md R187, R192). -/
def symbolSample (s : State) (j : Nat) : Sample :=
  modMix s.cfg (s.symbolCoef j) (sinAt s.cfg (phaseAfter s.cfg s.phase (j + 1)))
    (cosAt s.cfg (phaseAfter s.cfg s.phase (j + 1)))

theorem modSample_symbolSample (s : State) (k : Nat) :
    modSample s.cfg (!s.nextBit) s.sign k (cellsAfter s k) = (symbolSample s k, cellsAfter s (k + 1)) := by
  have hphase : phaseAdv s.cfg (cellsAfter s k).phase = phaseAfter s.cfg s.phase (k + 1) := phaseAdv_phaseAfter ..
  have hcoef : modCoef s.cfg (!s.nextBit) s.sign k (cellsAfter s k).icoef = s.symbolCoef k := modCoef_icoefAfter s k
  refine Prod.ext ?value (modSample_cellsAfter s k)
  case value => rw [modSample_value, hphase, hcoef]; rfl

theorem modBlock_samples {s : State} (hp : s.phase < s.cfg.fullTurn) :
    (modBlock s.cfg s.modCells).1 = vecOf s.cfg.n (symbolSample s) := by
  have hstart := cellsAfter_zero hp
  have hloop := loopCollect_eq_vecOf (n := s.cfg.n) (modSample_symbolSample s)
  rw [← hstart] at hloop
  exact congrArg Prod.fst hloop

theorem processMod_outbuf {s : State} (hs : s.shapeOk = true) :
    (processBlock pipeMod s).outbuf =
      reint s.cfg (vecOf s.cfg.n (symbolSample s)) (vecOf s.cfg.n (symbolSample s)) s.outbuf := by
  obtain ⟨-, -, -, -, -, hphase, -⟩ := (State.shapeOk_iff s).1 hs
  rw [← modBlock_samples hphase]
  rfl

/-- Settles O53: the cells by `exec_processMod`, the samples by the same loop's values. -/
theorem modulatorEmitsOneSymbol : Obligations.ModulatorEmitsOneSymbol := by
  unfold Obligations.ModulatorEmitsOneSymbol
  refine ⟨rfl, fun s hs hm => ⟨_, exec_processMod hs hm, ?cells, ?length, fun j hj => ?samples⟩⟩
  case cells => rw [← icoefAfter_block hs]; rfl
  case length => exact (congrArg List.length (processMod_outbuf hs)).trans (reint_outbuf_length hs _ _)
  case samples =>
    show memRead (processBlock pipeMod s).outbuf (2 * j) = symbolSample s j ∧
      memRead (processBlock pipeMod s).outbuf (2 * j + 1) = symbolSample s j
    rw [processMod_outbuf hs]
    exact memRead_reint_both_vecOf hs (symbolSample s) hj

/-! ### The notch -/

/-- Pair `i` (x, d) that a block of mode 1 feeds the engine: the sample DELAY earlier, from the look-back or from the
block itself, and the current left sample (45_block_entry.md R241). -/
def notchPair (s : State) (i : Nat) : Sample × Sample :=
  (if i < s.cfg.delay then memRead s.drbuf (s.cfg.n + i) else memRead s.inbuf (2 * (i - s.cfg.delay)),
    memRead s.inbuf (2 * i))

def notchPairs (s : State) : List (Sample × Sample) := (List.range s.cfg.n).map (notchPair s)

/-- 40_adaptive_fir.md R133: a block is its pairs fed in ascending order. -/
theorem lmsBlock_eq_lmsFeed (c : Config) (x d : List Sample) (f : FirCells) :
    lmsBlock c x d f = lmsFeed c ((List.range c.n).map fun i => (memRead x i, memRead d i)) f := by
  have hloop : ∀ n, loopCollect n (fun i g => lmsStep c (memRead x i) (memRead d i) g) f =
      lmsFeed c ((List.range n).map fun i => (memRead x i, memRead d i)) f := by
    intro n
    induction n with
    | zero => rfl
    | succ n ih =>
      rw [loopCollect_succ, ih, List.range_succ, List.map_append, List.map_singleton, lmsFeed_append]
      rfl
  exact hloop c.n

theorem memRead_deintLeft {c : Config} (inb : List Sample) {j : Nat} (hj : j < c.n) :
    memRead (deintLeft c inb) j = memRead inb (2 * j) := memRead_vecOf _ _ _ hj

/-- DRBUF after the left channel of the block was given to the manager. -/
def notchDrbuf (s : State) : List Sample := dlyUpdate s.cfg (deintLeft s.cfg s.inbuf) s.drbuf

theorem memRead_notchDrbuf {s : State} (hs : s.shapeOk = true) {a : Nat} (ha : a < s.cfg.drLen) :
    memRead (notchDrbuf s) a =
      if a < s.cfg.delay then memRead s.drbuf (s.cfg.n + a) else memRead s.inbuf (2 * (a - s.cfg.delay)) := by
  obtain ⟨-, -, -, -, hdr, -⟩ := (State.shapeOk_iff s).1 hs
  rw [notchDrbuf, memRead_dlyUpdate _ hdr ha]
  split_ifs with hlook
  · rfl
  · exact memRead_deintLeft _ (by unfold Config.drLen at ha; omega)

/-- The two windows of that DRBUF, position by position, are the pairs. -/
theorem windows_eq_notchPair {s : State} (hs : s.shapeOk = true) {i : Nat} (hi : i < s.cfg.n) :
    (memRead (dlyWindow s.cfg (notchDrbuf s)) i, memRead (curWindow s.cfg (notchDrbuf s)) i) = notchPair s i := by
  obtain ⟨hdly, hcur⟩ := windowIndexes_lt hi
  refine Prod.ext ?delayed ?current
  case delayed => exact (memRead_vecOf _ _ _ hi).trans (memRead_notchDrbuf hs hdly)
  case current =>
    refine ((memRead_vecOf _ _ _ hi).trans (memRead_notchDrbuf (a := curIndex s.cfg i) hs hcur)).trans ?_
    rw [curIndex, if_neg (by omega), Nat.add_sub_cancel_left]
    rfl

/-- What the engine answers to the block: its errors and the cells it leaves. -/
def notchFeed (s : State) : List Sample × FirCells := lmsFeed s.cfg (notchPairs s) s.firCells

theorem lmsBlock_windows {s : State} (hs : s.shapeOk = true) :
    lmsBlock s.cfg (dlyWindow s.cfg (notchDrbuf s)) (curWindow s.cfg (notchDrbuf s)) s.firCells = notchFeed s := by
  have hpairs : ((List.range s.cfg.n).map fun i =>
      (memRead (dlyWindow s.cfg (notchDrbuf s)) i, memRead (curWindow s.cfg (notchDrbuf s)) i)) = notchPairs s :=
    List.map_congr_left fun i hi => windows_eq_notchPair hs (List.mem_range.1 hi)
  rw [lmsBlock_eq_lmsFeed, hpairs, notchFeed]

theorem pipeNotch_deint {s : State} (hs : s.shapeOk = true) (rin : List Sample) :
    pipeNotch (deintLeft s.cfg s.inbuf) rin s =
      (((notchFeed s).1, (notchFeed s).1), { s.withFir (notchFeed s).2 with drbuf := notchDrbuf s }) := by
  rw [← lmsBlock_windows hs]
  rfl

/-- PROCESS.NOTCH: DRBUF updated, the engine fed, its errors in both channels. -/
theorem exec_processNotch {s : State} (hs : s.shapeOk = true) (hm : s.mode = .adaptiveNotch) :
    exec .processNotch s = .next { s.withFir (notchFeed s).2 with
      drbuf := notchDrbuf s
      outbuf := reint s.cfg (notchFeed s).1 (notchFeed s).1 s.outbuf } := by
  calc exec .processNotch s = .next (processBlock pipeNotch s) := if_pos hm
    _ = _ := by rw [processBlock_of_pipe (pipeNotch_deint hs _)]

/-- Settles O50, by the row's equation. -/
theorem notchEmitsTheErrorOfTheLeftChannel : Obligations.NotchEmitsTheErrorOfTheLeftChannel := by
  unfold Obligations.NotchEmitsTheErrorOfTheLeftChannel
  refine ⟨rfl, fun s hs hm => ?_⟩
  obtain ⟨-, -, -, -, hdr, -⟩ := (State.shapeOk_iff s).1 hs
  exact ⟨_, exec_processNotch hs hm, rfl, (dlyUpdate_length _ _ _).trans hdr, fun a ha => memRead_notchDrbuf hs ha,
    rfl, reint_outbuf_length hs _ _, fun j hj => memRead_reint_both hs _ hj⟩

/-! ### The notch as a copy -/

/-- Where the engine's error is the left sample itself, PROCESS.NOTCH copies that sample to both channels. -/
theorem memRead_notch_outbuf_of_copy {s : State} (hs : s.shapeOk = true) {j : Nat} (hj : j < s.cfg.n)
    (hcopy : memRead (notchFeed s).1 j = memRead s.inbuf (2 * j)) :
    memRead (reint s.cfg (notchFeed s).1 (notchFeed s).1 s.outbuf) (2 * j) = memRead s.inbuf (2 * j) ∧
      memRead (reint s.cfg (notchFeed s).1 (notchFeed s).1 s.outbuf) (2 * j + 1) = memRead s.inbuf (2 * j) :=
  hcopy ▸ memRead_reint_both hs _ hj

theorem firCells_fits {s : State} (hs : s.shapeOk = true) : s.firCells.Fits s.cfg := by
  obtain ⟨-, hh, hdl, hwc, -⟩ := (State.shapeOk_iff s).1 hs
  exact ⟨hh, hdl, hwc⟩

/-- A zero tap adds a zero product, so the prediction is 0. -/
theorem firPredict_of_zero_taps (c : Config) {f : FirCells} (hh : ∀ k, memRead f.h k = 0) : firPredict c f = 0 := by
  have hacc : firAcc c f = 0 :=
    loopUp_rule (fun _ acc => acc = (0 : Acc)) _ _ _ rfl fun k acc _ hzero => by simp [hzero, hh k]
  rw [firPredict, hacc]
  exact narrow16_zero

/-- With EMU = 0 no tap moves. -/
theorem firUpdate_zero {c : Config} {f : FirCells} (hf : f.Fits c) : firUpdate c 0 f = f := by
  have htaps : (firUpdate c 0 f).h = f.h := by
    refine space_ext _ _ (firUpdate_h_length c 0 f) fun k hk => ?tap
    have hk' : k < c.nTaps := (firUpdate_fits 0 hf).1 ▸ hk
    rw [memRead_firUpdate_h 0 hf hk', tapUpdate_of_zero _ (.inl rfl)]
  calc firUpdate c 0 f = { f with h := (firUpdate c 0 f).h } := rfl
    _ = f := by rw [htaps]

/-- MU = 0 scales every error to 0. -/
theorem firScale_of_mu_zero {c : Config} (hmu : c.mu = 0) (e : Sample) : firScale c e = 0 := by
  rw [firScale, hmu]
  exact (congrArg narrow16 (qmul32_zero_left e)).trans narrow16_zero

theorem lmsStep_of_zero_taps {c : Config} {f : FirCells} (x d : Sample) (hmu : c.mu = 0) (hf : f.Fits c)
    (hh : ∀ k, memRead f.h k = 0) : lmsStep c x d f = (d, firPush c x f) := by
  have herr : firErr d (firPredict c f) = d := by
    rw [firPredict_of_zero_taps c hh]
    exact sub16_zero_right d
  rw [lmsStep]
  simp only [herr, firScale_of_mu_zero hmu, firUpdate_zero hf]

/-- With zero taps and MU = 0 the errors are the desired samples, whatever the inputs, and the taps stay. -/
theorem lmsFeed_of_zero_taps {c : Config} {f : FirCells} (ps : List (Sample × Sample)) (hmu : c.mu = 0)
    (hf : f.Fits c) (hh : ∀ k, memRead f.h k = 0) :
    (lmsFeed c ps f).1 = ps.map Prod.snd ∧ (lmsFeed c ps f).2.h = f.h := by
  induction ps generalizing f with
  | nil => exact ⟨rfl, rfl⟩
  | cons p ps ih =>
    obtain ⟨x, d⟩ := p
    obtain ⟨herrs, htaps⟩ := ih (firPush_fits x hf) hh
    rw [lmsFeed, lmsStep_of_zero_taps x d hmu hf hh]
    exact ⟨congrArg (List.cons d) herrs, htaps⟩

theorem notchPairs_desired (s : State) : (notchPairs s).map Prod.snd = deintLeft s.cfg s.inbuf := by
  rw [notchPairs, List.map_map]
  rfl

/-- Settles O56: the errors are the desired samples, which are the left channel. -/
theorem notchWithZeroStepCopiesTheLeftChannel : Obligations.NotchWithZeroStepCopiesTheLeftChannel := by
  unfold Obligations.NotchWithZeroStepCopiesTheLeftChannel
  intro s hs hm hmu hh
  obtain ⟨herrs, htaps⟩ := lmsFeed_of_zero_taps (notchPairs s) hmu (firCells_fits hs) hh
  refine ⟨_, exec_processNotch hs hm, fun k => (congrArg (memRead · k) htaps).trans (hh k),
    fun j hj => memRead_notch_outbuf_of_copy hs hj ?copy⟩
  case copy => rw [notchFeed, herrs, notchPairs_desired, memRead_deintLeft _ hj]

/-- Before sample `j` of a list of pairs numbered from 0 come the pairs below `j`. -/
theorem memRead_lmsFeed_range (c : Config) (pair : Nat → Sample × Sample) (f : FirCells) {n j : Nat} (hj : j < n) :
    memRead (lmsFeed c ((List.range n).map pair) f).1 j =
      (lmsStep c (pair j).1 (pair j).2 (lmsFeed c ((List.range j).map pair) f).2).1 := by
  obtain ⟨m, rfl⟩ := Nat.exists_eq_add_of_lt hj
  have hsplit : (List.range (j + m + 1)).map pair =
      (List.range j).map pair ++ pair j :: (List.range m).map fun i => pair (j + (i + 1)) := by
    rw [Nat.add_assoc, List.range_add, List.map_append, List.range_succ_eq_map]
    simp [Function.comp_def]
  have herr := memRead_lmsFeed_errors c ((List.range j).map pair)
    ((List.range m).map fun i => pair (j + (i + 1))) (pair j).1 (pair j).2 f
  rw [List.length_map, List.length_range] at herr
  rw [hsplit]
  exact herr

/-- Over an empty look-back the inputs of the samples below DELAY are 0. -/
theorem notchPairs_of_zero_drbuf {s : State} (hdr : ∀ a, memRead s.drbuf a = 0) {j : Nat} (hj : j ≤ s.cfg.delay) :
    (List.range j).map (notchPair s) = zeroInput ((List.range j).map fun i => memRead s.inbuf (2 * i)) := by
  rw [zeroInput, List.map_map]
  refine List.map_congr_left fun i hi => Prod.ext ?input rfl
  case input => exact (if_pos (by have := List.mem_range.1 hi; omega)).trans (hdr _)

/-- Settles O57: before a sample up to the DELAY-th only zeros were pushed over a zero line, so its prediction is 0. -/
theorem firstNotchBlockStartsAsACopy : Obligations.FirstNotchBlockStartsAsACopy := by
  unfold Obligations.FirstNotchBlockStartsAsACopy
  intro s hs hm _ hdl hdr
  refine ⟨_, exec_processNotch hs hm, fun j hj hdelay => memRead_notch_outbuf_of_copy hs hj ?copy⟩
  case copy =>
    have hfits := firCells_fits hs
    obtain ⟨-, -, hline⟩ := lmsFeed_zeroInput_of_lineZero
      ((List.range j).map fun i => memRead s.inbuf (2 * i)) hfits fun k _ => hdl k
    rw [notchFeed, notchPairs, memRead_lmsFeed_range _ _ _ hj, notchPairs_of_zero_drbuf hdr hdelay, lmsStep,
      firPredict_of_lineZero (lmsFeed_fits _ hfits) hline]
    exact sub16_zero_right _

/-! ### Inputs that a row does not look at -/

/-- The block `b` in place of INBUF makes no difference to the pipeline in the state `s`. -/
def IgnoresBlock (pipe : Pipe) (s : State) (b : List Sample) : Prop :=
  pipe (deintLeft s.cfg b) (deintRight s.cfg b) { s with inbuf := b } =
    ((pipe (deintLeft s.cfg s.inbuf) (deintRight s.cfg s.inbuf) s).1,
      { (pipe (deintLeft s.cfg s.inbuf) (deintRight s.cfg s.inbuf) s).2 with inbuf := b })

/-- Then it makes none to the row: the re-interleaver does not look at INBUF either. -/
theorem whenMode_of_ignoresBlock {pipe : Pipe} {s : State} {b : List Sample} {m : Mode} (hm : s.mode = m)
    (h : IgnoresBlock pipe s b) :
    ∃ t, whenMode m (processBlock pipe) s = .next t ∧
      whenMode m (processBlock pipe) { s with inbuf := b } = .next { t with inbuf := b } := by
  refine ⟨_, if_pos hm, (if_pos hm).trans (congrArg Host.Outcome.next ?block)⟩
  case block => exact processBlock_of_pipe h

/-- The sine and the zeros alike. -/
theorem pipeTone_ignoresBlock (s : State) (b : List Sample) : IgnoresBlock pipeTone s b := by
  unfold IgnoresBlock pipeTone
  cases s.cfg.mode2 with
  | tone => rfl
  | silence => rfl

theorem pipeMod_ignoresBlock (s : State) (b : List Sample) : IgnoresBlock pipeMod s b := rfl

theorem pipeNotch_ignoresBlock {s : State} {b : List Sample} (h : deintLeft s.cfg b = deintLeft s.cfg s.inbuf) :
    IgnoresBlock pipeNotch s b := by
  unfold IgnoresBlock
  rw [h]
  rfl

/-- Settles O55: each of the two rows runs a pipeline that ignores every block. -/
theorem toneAndModulatorIgnoreTheInput : Obligations.ToneAndModulatorIgnoreTheInput := by
  unfold Obligations.ToneAndModulatorIgnoreTheInput
  rintro s b i (rfl | rfl) hsel
  case inl => exact whenMode_of_ignoresBlock (of_decide_eq_true hsel).symm (pipeTone_ignoresBlock s b)
  case inr => exact whenMode_of_ignoresBlock (of_decide_eq_true hsel).symm (pipeMod_ignoresBlock s b)

/-- Settles O54: the notch looks at the left channel alone. -/
theorem notchIgnoresTheRightChannel : Obligations.NotchIgnoresTheRightChannel := by
  unfold Obligations.NotchIgnoresTheRightChannel
  intro s b _ hm hleft
  have hdeint : deintLeft s.cfg b = deintLeft s.cfg s.inbuf :=
    List.map_congr_left fun j hj => hleft j (List.mem_range.1 hj)
  exact whenMode_of_ignoresBlock hm (pipeNotch_ignoresBlock hdeint)

end Sys2Proof.Proofs

/-! The exceptions chapter (60_exceptions.md): which moves complete and what alone is refused (R260, R281), and an event
presented at the moment a command is accepted (R267). -/

namespace Sys2Proof.Proofs

open Sys2Proof Sys2Proof.Machine

/-! ### The commands that a word decodes to -/

theorem eq_of_decodeCommand {m : Mode} {w : BitVec 8} {i : Instr} (h : decodeCommand m w = .ok i) :
    i = .init ∨ i = processRow m ∨ i = .ctrlTick := by
  rcases decodeCommand_cases m w with ⟨-, hd⟩ | ⟨-, hd⟩ | ⟨-, hd⟩ | ⟨-, -, -, hd⟩
  · exact .inl (Except.ok.inj (h.symm.trans hd))
  · exact .inr (.inl (Except.ok.inj (h.symm.trans hd)))
  · exact .inr (.inr (Except.ok.inj (h.symm.trans hd)))
  · cases h.symm.trans hd

theorem processRow_ignoresEvents (m : Mode) : (processRow m).ignoresEvents = true := by
  cases m <;> rfl

/-- Of the commands, CTRL_TICK alone looks at the pending flags. -/
theorem ignoresEvents_of_decodeCommand {m : Mode} {w : BitVec 8} {i : Instr} (h : decodeCommand m w = .ok i)
    (hi : i ≠ .ctrlTick) : i.ignoresEvents = true := by
  rcases eq_of_decodeCommand h with rfl | rfl | rfl
  · rfl
  · exact processRow_ignoresEvents m
  · exact absurd rfl hi

/-- INIT and CTRL_TICK answer in every state, and the decoder picks the row of PROCESS that MODE selects. -/
theorem exec_next_of_decodeCommand {w : BitVec 8} {i : Instr} {s : State} (h : decodeCommand s.mode w = .ok i) :
    ∃ t, exec i s = .next t := by
  rcases eq_of_decodeCommand h with rfl | rfl | rfl
  · exact ⟨_, rfl⟩
  · exact exec_processRow_next rfl
  · exact ⟨_, exec_ctrlTick s⟩

theorem decodeCommand_ok {w : BitVec 8} (m : Mode) (hw : w = 0x01 ∨ w = 0x02 ∨ w = 0x03) :
    ∃ i, decodeCommand m w = .ok i := by
  rcases hw with rfl | rfl | rfl
  · exact ⟨.init, rfl⟩
  · exact ⟨processRow m, rfl⟩
  · exact ⟨.ctrlTick, rfl⟩

/-! ### What completes -/

/-- Reset wins over everything presented with it (60_exceptions.md R267). -/
theorem step_reset {s : State} {p : Pins} {rest : List HostMove} (hs : s.shapeOk = true)
    (hq : s.script = .present p :: rest) (hr : p.rst = true) :
    step s = .next (applyReset { s with script := rest, done := false }) := by
  rw [step_move hs hq]
  exact if_pos hr

/-- An accepted command completes (60_exceptions.md R260). -/
theorem step_command_next {s : State} {p : Pins} {i : Instr} {rest : List HostMove} (hs : s.shapeOk = true)
    (hb : s.busy = false) (hq : s.script = .present p :: rest) (hr : p.rst = false) (hv : p.cmdValid = true)
    (hd : decodeCommand s.mode p.cmd = .ok i) :
    ∃ v, exec i { s with script := rest, done := false, busy := true } = .next v ∧
      step s = .next (holdEvents p (completeCommand v)) := by
  obtain ⟨v, hx⟩ := exec_next_of_decodeCommand (s := { s with script := rest, done := false, busy := true }) hd
  exact ⟨v, hx, step_command hs hb hq hr hv hd hx⟩

/-- A presentation of reset, of events alone or of one of the three command words has a next state. -/
theorem step_present_next {s : State} {p : Pins} {rest : List HostMove} (hs : s.shapeOk = true) (hb : s.busy = false)
    (hq : s.script = .present p :: rest)
    (hp : p.rst = true ∨ p.cmdValid = false ∨ p.cmd = 0x01 ∨ p.cmd = 0x02 ∨ p.cmd = 0x03) :
    ∃ t, step s = .next t := by
  cases hr : p.rst with
  | true => exact ⟨_, step_reset hs hq hr⟩
  | false =>
    cases hv : p.cmdValid with
    | false => exact ⟨_, eventWordLatchesExactlyItsBits s p rest hs hq hr hv⟩
    | true =>
      have hw : p.cmd = 0x01 ∨ p.cmd = 0x02 ∨ p.cmd = 0x03 := by simpa [hr, hv] using hp
      obtain ⟨i, hd⟩ := decodeCommand_ok s.mode hw
      obtain ⟨v, -, hstep⟩ := step_command_next hs hb hq hr hv hd
      exact ⟨_, hstep⟩

/-- Settles O15: idling, READ, and the presentations. -/
theorem everyOperationCompletes : Obligations.EveryOperationCompletes := by
  unfold Obligations.EveryOperationCompletes
  rintro s ⟨hs, -, hb⟩
  refine ⟨fun hq => step_idle hs hq, fun rest hq => ?read, fun p rest hq hp => step_present_next hs hb hq hp⟩
  case read =>
    obtain ⟨-, -, hread⟩ := loadWritesInbufAndReadChangesNothing s rest hs hb
    exact ⟨_, hread hq⟩

/-! ### What is refused -/

/-- Settles O16, by the next host move: one that completes does so by O15, and each other is one of the refusals. -/
theorem onlyTheScriptCanBeRefused : Obligations.OnlyTheScriptCanBeRefused := by
  unfold Obligations.OnlyTheScriptCanBeRefused
  intro s hinv
  have ⟨hs, _, hb⟩ := hinv
  obtain ⟨hidle, hread, hpresent⟩ := everyOperationCompletes s hinv
  rcases hq : s.script with _ | ⟨m, rest⟩
  · exact .inl ⟨_, hidle hq⟩
  cases m with
  | present p =>
    by_cases hp : p.rst = true ∨ p.cmdValid = false ∨ p.cmd = 0x01 ∨ p.cmd = 0x02 ∨ p.cmd = 0x03
    · exact .inl (hpresent p rest hq hp)
    · simp only [not_or, Bool.not_eq_true, Bool.not_eq_false] at hp
      obtain ⟨hr, hv, h1, h2, h3⟩ := hp
      obtain ⟨-, hrefused⟩ := reservedCommandWordsAreRefused
      exact .inr (.inl ⟨p, rest, rfl, hv, h1, h2, h3, hrefused s p rest hinv hq hr hv h1 h2 h3⟩)
  | load vs =>
    obtain ⟨hload, hwrong, -⟩ := loadWritesInbufAndReadChangesNothing s rest hs hb
    by_cases hlen : vs.length = s.cfg.blockLen
    · exact .inl ⟨_, hload vs hq hlen⟩
    · exact .inr (.inr (.inr ⟨vs, rest, rfl, hlen, hwrong vs hq hlen⟩))
  | read => exact .inl (hread rest hq)
  | processAs m =>
    obtain ⟨htrue, hfalse⟩ := modeClaimIsCheckedByThePseudoMove s m rest hs hb hq
    by_cases hmode : s.mode = m
    · rw [htrue hmode, presentInstr, encode_processRow]
      exact .inl (step_present_next (by exact hs) (by exact hb) rfl (by simp [pinsOf]))
    · exact .inr (.inr (.inl ⟨m, rest, rfl, hmode, hfalse hmode⟩))

/-! ### An event at the moment of a command -/

/-- The state after an accepted command that events came with: the events are still presented. -/
theorem holdEvents_completeCommand {p : Pins} (v : State) (he : p.ev ≠ 0) :
    holdEvents p (completeCommand v) =
      { v with busy := false, done := true, script := .present (pinsOf (.ev p.ev)) :: v.script } := by
  rw [holdEvents_eq, if_neg he]
  rfl

/-- Settles O10: the command is the first step, the event it left presented the second; the flags between them are as
before under INIT and PROCESS, and clear under CTRL_TICK. -/
theorem eventPresentedWithACommandIsKept : Obligations.EventPresentedWithACommandIsKept := by
  unfold Obligations.EventPresentedWithACommandIsKept
  intro s w e i rest hs hb he hd hq
  obtain ⟨v, hx, hcommand⟩ := step_command_next hs hb hq rfl rfl hd
  obtain ⟨⟨-, -, -, -, hscript⟩, -⟩ := onlyTheNamedOperationsWriteEachCell _ _ _ hx
  rw [holdEvents_completeCommand v he, hscript] at hcommand
  have hvs : v.shapeOk = true := exec_shapeOk (by exact hs) hx
  have hevent := eventWordLatchesExactlyItsBits
    { v with busy := false, done := true, script := .present (pinsOf (.ev e)) :: rest } _ rest hvs rfl rfl rfl
  refine ⟨v, _, _, hx, hcommand, hevent, rfl, rfl, fun hi => ?ignores, fun hi => ?tick⟩
  case ignores =>
    obtain ⟨hinc, hdec, -, -⟩ := exec_of_ignoresEvents (ignoresEvents_of_decodeCommand hd hi) hx
    exact ⟨congrArg (· || e.getLsbD 0) hinc, congrArg (· || e.getLsbD 1) hdec⟩
  case tick =>
    subst hi
    rw [exec_ctrlTick, ctrlTick_eq] at hx
    obtain rfl := Host.Outcome.next.inj hx
    exact ⟨rfl, rfl, rfl, Bool.false_or _, Bool.false_or _⟩

end Sys2Proof.Proofs

/-! The reset chapter (70_reset_and_hazards.md): what asserting `rst` leaves (R290, R291). -/

namespace Sys2Proof.Proofs

open Sys2Proof Sys2Proof.Machine

/-- ICOEF resets to the positive end of its range (10_state.md R42). -/
theorem applyReset_icoef_toInt (s : State) : (applyReset s).icoef.toInt = 32767 := by
  rw [applyReset_icoef]
  decide

/-- Settles O6: reset wins over what is presented with it, so the next state is `applyReset`, whatever BUSY was. Its
single cells are read off by the laws of `applyReset`; H, DL and DRBUF are zero-filled to their lengths. -/
theorem resetPutsEveryCellAtItsResetValue : Obligations.ResetPutsEveryCellAtItsResetValue := by
  unfold Obligations.ResetPutsEveryCellAtItsResetValue
  intro s p rest hs hq hr
  refine ⟨_, step_reset hs hq hr, applyReset_mode _, applyReset_incPend _, applyReset_decPend _, applyReset_sign _,
    applyReset_ind _, applyReset_testOut _, applyReset_busy _, applyReset_wc _, applyReset_phase _,
    applyReset_icoef_toInt _, applyReset_bitcur _, ?hLength, ?dlLength, ?drbufLength, ?hZero, ?dlZero, ?drbufZero,
    applyReset_cfg _, applyReset_inbuf _, applyReset_outbuf _, applyReset_done _⟩
  case hLength | dlLength | drbufLength => exact List.length_replicate
  case hZero | dlZero | drbufZero => exact memRead_replicate_zero _

end Sys2Proof.Proofs
